-- ==== Sys2Proof/Word.lean ====
section
/-! DEFINITION. The widths of 00_scope.md rule R6: byte and symbol 8 bits, alphabet index 6 bits,
register 32 bits, window offset 18 bits. Bit 0 is the least significant bit (rule R10). -/

namespace Sys2Proof

/-- A byte, or the 8-bit code of a symbol (R6). -/
abbrev Byte := BitVec 8

/-- An alphabet index, a 6-bit value (R6). -/
abbrev Index := BitVec 6

/-- A register or a command word (R6, R80). -/
abbrev Word := BitVec 32

/-- An offset in the block's window of 2^18 bytes (R50). -/
abbrev Offset := BitVec 18

end Sys2Proof
end

