-- ==== Sys2Proof/Syntax.lean ====
section
/-! DEFINITION. The seven commands of 30_encoding.md rule R81, one constructor per row of
spec/opcode_table.json. -/

namespace Sys2Proof

/-- A command. The fields are those of the command word (R80, R88): N of ENCGRP, FINAL of DECGRP.
Every other operand stands in ARG, ILEN and IBUF (R86). -/
inductive Instr where
  /-- SYMAT: one entry of the character LUT (R103). -/
  | symat
  /-- CLASSIFY: look a symbol up in the inverse LUT (R104). -/
  | classify
  /-- VALIDATE: classify the text in IBUF (R124). -/
  | validate
  /-- ENCGRP: encode the group of `n` bytes held in ARG (R144). -/
  | encgrp (n : BitVec 2)
  /-- ENCODE: encode the frame in IBUF (R145). -/
  | encode
  /-- DECGRP: check and decode the group held in ARG, the last of its text if `final` (R165). -/
  | decgrp (final : Bool)
  /-- DECODE: validate and decode the frame in IBUF (R166). -/
  | decode
deriving DecidableEq, Repr

end Sys2Proof
end

