-- ==== Sys2Proof/WellFormed.lean ====
section
/-! DEFINITION. Which commands have an encoding (30_encoding.md rules R83 and R84). -/

namespace Sys2Proof

/-- N of ENCGRP is 1, 2 or 3: "N = 0 is reserved" (R83). Every other command has all its encodings. -/
def Instr.wellFormed : Instr → Bool
  | .symat => true
  | .classify => true
  | .validate => true
  | .encgrp n => n != 0
  | .encode => true
  | .decgrp _ => true
  | .decode => true

end Sys2Proof
end

