-- ==== Sys2Proof/Decode.lean ====
section
/-! DEFINITION. The command word (30_encoding.md rules R80 to R85, R92): the decoder, total on all
32-bit words and rejecting by name; the encoder; the table of rule R84; the command's text (R90). -/

namespace Sys2Proof

/-- Why a word is no command. Each of them runs as BADCMD (R85, R92). -/
inductive BadCmd where
  /-- A non-zero bit in 7:4, 15:9 or 31:18 (R80). -/
  | reservedBits
  /-- OP 0x0 or 0x8 to 0xF (R81). -/
  | reservedOp
  /-- FINAL on a command other than DECGRP (R82). -/
  | finalNotAllowed
  /-- N on a command other than ENCGRP (R83). -/
  | nNotAllowed
  /-- ENCGRP with N = 0 (R83). -/
  | nIsZero
deriving DecidableEq, Repr

/-- OP, bits 3:0 (R80). -/
def opField (w : Word) : BitVec 4 := w.extractLsb' 0 4

/-- FINAL, bit 8 (R80). -/
def finalField (w : Word) : Bool := w.getLsbD 8

/-- N, bits 17:16 (R80). -/
def nField (w : Word) : BitVec 2 := w.extractLsb' 16 2

/-- The reserved bits 7:4, 15:9 and 31:18 are all 0 (R80). -/
def reservedClear (w : Word) : Bool :=
  w.extractLsb' 4 4 == 0 && w.extractLsb' 9 7 == 0 && w.extractLsb' 18 14 == 0

/-- A command with neither field: FINAL and N must be 0. -/
def plainCommand (w : Word) (i : Instr) : Except BadCmd Instr :=
  if finalField w then .error .finalNotAllowed
  else if nField w != 0 then .error .nNotAllowed
  else .ok i

/-- `decode` of rule R85. -/
def decode (w : Word) : Except BadCmd Instr :=
  if !reservedClear w then .error .reservedBits
  else match (opField w).toNat with
    | 1 => plainCommand w .symat
    | 2 => plainCommand w .classify
    | 3 => plainCommand w .validate
    | 4 =>
      if finalField w then .error .finalNotAllowed
      else if nField w == 0 then .error .nIsZero
      else .ok (.encgrp (nField w))
    | 5 => plainCommand w .encode
    | 6 => if nField w != 0 then .error .nNotAllowed else .ok (.decgrp (finalField w))
    | 7 => plainCommand w .decode
    | _ => .error .reservedOp

/-- The one format of rule R80, from its fields. -/
def commandWord (op : BitVec 4) (final : Bool) (n : BitVec 2) : Word :=
  (0 : BitVec 14) ++ n ++ (0 : BitVec 7) ++ BitVec.ofBool final ++ (0 : BitVec 4) ++ op

/-- The word of a command (R81, R84). -/
def encode : Instr → Word
  | .symat => commandWord 1 false 0
  | .classify => commandWord 2 false 0
  | .validate => commandWord 3 false 0
  | .encgrp n => commandWord 4 false n
  | .encode => commandWord 5 false 0
  | .decgrp f => commandWord 6 f 0
  | .decode => commandWord 7 false 0

/-- A row of rule R84's table. -/
structure OpRow where
  pattern  : Word
  mask     : Word
  /-- The row has an N field, which must be non-zero. -/
  nNonzero : Bool
deriving DecidableEq, Repr

/-- The table of rule R84, in its order. -/
def opTable : List OpRow :=
  [⟨0x00000001, 0xFFFFFFFF, false⟩, ⟨0x00000002, 0xFFFFFFFF, false⟩,
   ⟨0x00000003, 0xFFFFFFFF, false⟩, ⟨0x00000004, 0xFFFCFFFF, true⟩,
   ⟨0x00000005, 0xFFFFFFFF, false⟩, ⟨0x00000006, 0xFFFFFEFF, false⟩,
   ⟨0x00000007, 0xFFFFFFFF, false⟩]

/-- A word is legal iff it equals a row's pattern under the row's mask, N non-zero where the row has
an N field (R84). -/
def legalWord (w : Word) : Bool :=
  opTable.any fun r => w &&& r.mask == r.pattern && (!r.nNonzero || nField w != 0)

/-- The decoder on the host's numbering of a row: the low `nbits` bits of `w`, bits above them 0. A
command is one 32-bit word (R89), so a longer row has no command. -/
def decodeTableWord (nbits w : Nat) : Option Instr :=
  let v := w % 2 ^ nbits
  if v < 2 ^ 32 then
    match decode (BitVec.ofNat 32 v) with
    | .ok i => some i
    | .error _ => none
  else none

/-- How a command is written (R90). N = 0 has no syntax: the text is that of no command. -/
def Instr.text : Instr → String
  | .symat => "SYMAT"
  | .classify => "CLASSIFY"
  | .validate => "VALIDATE"
  | .encgrp 1 => "ENCGRP n=1"
  | .encgrp 2 => "ENCGRP n=2"
  | .encgrp 3 => "ENCGRP n=3"
  | .encgrp _ => ""
  | .encode => "ENCODE"
  | .decgrp false => "DECGRP"
  | .decgrp true => "DECGRP.final"
  | .decode => "DECODE"

/-- The ten commands that have a legal word, in the order of rule R84. -/
def legalInstrs : List Instr :=
  [.symat, .classify, .validate, .encgrp 1, .encgrp 2, .encgrp 3, .encode,
   .decgrp false, .decgrp true, .decode]

/-- The word a command's text stands for (R90). -/
def assemble (t : String) : Option Word :=
  (legalInstrs.find? fun i => i.text == t).map encode

end Sys2Proof
end

