-- ==== Sys2Proof/Config.lean ====
section
/-! DEFINITION. What one block fixes (the OPEN parameters of 00_scope.md rule R6, under rules R7 and
R8) and the free values (70_reset_and_hazards.md rules R201 and R206). -/

namespace Sys2Proof

/-- The OPEN parameters of rule R6. `sym62` and `sym63` are the two free entries of the ROM, `pad`
the padding symbol, `cap` the bytes in each buffer, `base` the bus address of the window. -/
structure Params where
  sym62 : Byte
  sym63 : Byte
  pad   : Byte
  cap   : Nat
  base  : Nat
deriving DecidableEq, Repr

/-- The 62 codes of ALNUM (R9): A to Z, a to z and 0 to 9 in ASCII. -/
def isAlnum (c : Byte) : Bool :=
  (0x41 ≤ c && c ≤ 0x5A) || (0x61 ≤ c && c ≤ 0x7A) || (0x30 ≤ c && c ≤ 0x39)

/-- Rule R7, points 1 to 4, on the symbols. -/
abbrev Params.SymbolsOk (p : Params) : Prop :=
  p.sym62 ≠ p.sym63 ∧ isAlnum p.sym62 = false ∧ isAlnum p.sym63 = false ∧
  isAlnum p.pad = false ∧ p.pad ≠ p.sym62 ∧ p.pad ≠ p.sym63 ∧
  ¬(p.sym62 = 0x2B ∧ p.sym63 = 0x2F)

/-- Rule R8 on CAP, and the alignment of BASE (R50). -/
abbrev Params.PlacesOk (p : Params) : Prop :=
  4 ≤ p.cap ∧ p.cap ≤ 65536 ∧ p.cap % 4 = 0 ∧ p.base % 0x40000 = 0

/-- The parameter values rules R7, R8 and R50 admit. -/
abbrev Params.Admissible (p : Params) : Prop := p.SymbolsOk ∧ p.PlacesOk

/-- An admissible choice of the parameters. -/
abbrev AdmissibleParams := { p : Params // p.Admissible }

/-- The parameters of this block: some admissible value, and nothing else is known of it (R6;
93_implementation_defined.md U1 to U4). The premise only says that an admissible value exists. -/
opaque Config.params [Inhabited AdmissibleParams] : AdmissibleParams

/-- `Config.params` with its premise met. -/
def Config.theParams : AdmissibleParams :=
  @Config.params ⟨⟨⟨0x21, 0x23, 0x25, 8, 0⟩, by decide⟩⟩

/-- The byte a buffer cell holds after reset number `epoch` until it is written: an independent free
draw for each cell and each reset (R201; U5). The second argument is the cell's window offset. -/
opaque Config.freeByte : Nat → Nat → Byte

/-- The value of the n-th read that rule R206 leaves unspecified (U6). -/
opaque Config.freeWord : Nat → Word

/-- A host expression `x << y` with y at least 32: R11 gives no value. -/
opaque Config.wideShl : Word → Word → Word

/-- A host expression `x >> y` with y at least 32: R11 gives no value, nor that it is the value of
`x << y`. -/
opaque Config.wideShr : Word → Word → Word

/-- A host expression `x mod 0`: R11 gives no value. -/
opaque Config.modByZero : Word → Word

/-- A host expression `x / 0`: R11 gives no value. -/
opaque Config.divByZero : Word → Word

/-- A host expression `v[hi:lo]` that names no field of a 32-bit value, since hi lies below lo or above
bit 31: R10 gives no value. The arguments are v, hi and lo. -/
opaque Config.noField : Word → Nat → Nat → Word

/-- A host variable (its name, and its element if it is an array) that the host program has not
assigned: R91 gives no value. -/
opaque Config.unassigned : Nat → Option Word → Word

end Sys2Proof
end

