-- ==== Sys2Proof/Machine/State.lean ====
section
/-! DEFINITION. The block's state as plain data (10_state.md rules R20 to R39), the reasons a step can
stop, and the state after reset (rule R39). -/

namespace Sys2Proof.Machine

open Sys2Proof

/-- Why the machine stops with a fault: never. "Neither stops the block or the host. After either one,
the block accepts the next access and the next command as usual" (60_exceptions.md rule R180): a
command error is a completion code in STATUS.ERR and a bus error is a response on the bus, each of
them a next state. No step raises a fault. -/
inductive Fault
deriving DecidableEq, Repr

/-- Why a step has no meaning. -/
inductive Refusal where
  /-- Raised by `exec` for an instruction that has no meaning yet; no arm of it does. Safe. -/
  | notModelled (mnemonic : String)
  /-- Raised by `step` for a host access made while reset is asserted: "Host accesses while reset is
  asserted are not modelled; the host must not make them" (70_reset_and_hazards.md rule R211;
  93_implementation_defined.md U11, `refuse`). Safe. -/
  | accessInReset
  /-- Raised by a host program (`HostSys.step`) for an access beyond the window of 2^18 bytes: "How
  the platform's decoder maps BASE is outside the block" (20_memory.md rule R50). Safe. -/
  | outsideWindow
deriving DecidableEq, Repr

/-- The result codes of 60_exceptions.md rule R181. -/
inductive ErrCode where
  | ok | invalidLength | invalidSymbol | misplacedPadding | capacity | badCmd
deriving DecidableEq, Repr

/-- The STATUS register's fields (R28). The reserved bits read 0 and are no storage. -/
structure Status where
  busy  : Bool
  done  : Bool
  err   : BitVec 4
  wbusy : Bool
deriving DecidableEq, Repr

/-- The width of a host access (20_memory.md rules R54 and R55). -/
inductive Width where
  | w8 | w16 | w32
deriving DecidableEq, Repr

/-- One host access to the window (R20). A narrow write carries its value in the low bits. -/
inductive Access where
  | read (w : Width) (off : Offset)
  | write (w : Width) (off : Offset) (v : Word)
deriving DecidableEq, Repr

/-- The bus's response to a host access. -/
inductive Response where
  /-- A read's value, zero-extended. -/
  | data (v : Word)
  /-- A write that was not refused, be it ignored or not (R60: "not errors"). -/
  | written
  /-- The block refused the access (R58). -/
  | busError
deriving DecidableEq, Repr

/-- One move of an agent (R20). -/
inductive Turn where
  /-- HOST makes an access. -/
  | access (a : Access)
  /-- BLOCK takes its step if it has one. -/
  | block
  /-- The platform resets the block (R200). -/
  | reset
  /-- HOST makes an access while reset is asserted (R211). -/
  | accessInReset (a : Access)
deriving DecidableEq, Repr

/-- The buffer bytes written since reset: window offset and byte, offsets strictly rising. -/
abbrev Memory := List Host.Cell

/-- The state tuple of rule R21, and the model's own fields after it. -/
structure State where
  /-- ROM's free entries, PAD, CAPR and BASE: constants of the block (R21, R22, R23, R31). -/
  params : Params
  /-- CMD (R27). -/
  cmd    : Word
  /-- STATUS (R28). -/
  status : Status
  /-- ILEN (R29). -/
  ilen   : Word
  /-- OLEN (R30). -/
  olen   : Word
  /-- ARG (R32). -/
  arg    : Word
  /-- RES (R33). -/
  res    : Word
  /-- IBUF and OBUF (R34, R35): the bytes written since the last reset. -/
  mem    : Memory
  /-- The model's own: how many resets there have been; keys the draws of R201. -/
  epoch  : Nat
  /-- The model's own: how many draws of R206 have been taken. -/
  draws  : Nat
  /-- The model's own: the moves still to come, the next one first. -/
  turns  : List Turn
  /-- The model's own: the response to the latest host access. -/
  resp   : Option Response
deriving DecidableEq, Repr

/-- STATUS after reset (R28, R39). -/
def Status.reset : Status := ⟨false, false, 0, false⟩

/-- The state after reset (R39). The parameters are the block's, the buffers hold free draws. -/
def State.reset : State where
  params := Config.theParams.val
  cmd    := 0
  status := Status.reset
  ilen   := 0
  olen   := 0
  arg    := 0
  res    := 0
  mem    := []
  epoch  := 0
  draws  := 0
  turns  := []
  resp   := none

end Sys2Proof.Machine
end

