-- ==== Sys2Proof/Machine/Flags.lean ====
section
/-! DEFINITION. STATUS, the block's only flags (10_state.md rules R28 and R36), and the result codes of
60_exceptions.md rule R181. -/

namespace Sys2Proof.Machine

/-- The number of a result code (R181). -/
def ErrCode.bits : ErrCode → BitVec 4
  | .ok => 0
  | .invalidLength => 1
  | .invalidSymbol => 2
  | .misplacedPadding => 3
  | .capacity => 4
  | .badCmd => 5

/-- STATUS as the host reads it: WBUSY bit 8, ERR bits 7:4, DONE bit 1, BUSY bit 0, the rest 0 (R28). -/
def Status.word (s : Status) : Word :=
  (0 : BitVec 23) ++ BitVec.ofBool s.wbusy ++ s.err ++ (0 : BitVec 2) ++
    BitVec.ofBool s.done ++ BitVec.ofBool s.busy

/-- Acceptance of a command: ERR <- 0, DONE <- 0, BUSY <- 1; WBUSY stays (R204). -/
def Status.accepted (s : Status) : Status := { s with busy := true, done := false, err := 0 }

/-- Completion with a code: ERR <- code, DONE <- 1, BUSY <- 0; WBUSY stays (R184). -/
def Status.completed (s : Status) (c : ErrCode) : Status :=
  { s with busy := false, done := true, err := c.bits }

/-- A write of `v` to STATUS: bit 1 clears DONE, bit 8 clears WBUSY, the rest is ignored (R28). -/
def Status.writeOneToClear (s : Status) (v : Word) : Status :=
  { s with done := s.done && !v.getLsbD 1, wbusy := s.wbusy && !v.getLsbD 8 }

/-- A host write was ignored because BUSY = 1: WBUSY <- 1 (R205). -/
def Status.writeIgnored (s : Status) : Status := { s with wbusy := true }

end Sys2Proof.Machine
end

