-- ==== Sys2Proof/Machine/Operands.lean ====
section
/-! DEFINITION. The operand lanes of ARG and the result layouts of RES (30_encoding.md rules R86 and
R87), and the bytes of a bus word (20_memory.md rule R53). -/

namespace Sys2Proof.Machine

/-- Lane k of a 32-bit word: bits 8k+7 .. 8k (R86). -/
def lane (w : Word) (k : Nat) : Byte := w.extractLsb' (8 * k) 8

/-- SYMAT's operand, ARG[5:0] (R86). -/
def argIndex (arg : Word) : Index := arg.extractLsb' 0 6

/-- The four lanes, lane 0 first (R86). -/
def lanes (w : Word) : List Byte := [lane w 0, lane w 1, lane w 2, lane w 3]

/-- The word whose lanes are `b0` to `b3`, `b0` in bits 7:0 (R53, R87). -/
def ofLanes (b0 b1 b2 b3 : Byte) : Word := b3 ++ b2 ++ b1 ++ b0

/-- ENCGRP's result: the four symbols, s0 in RES[7:0] (R87). -/
def encGroupResult (t : List Byte) : Word :=
  ofLanes (t.getD 0 0) (t.getD 1 0) (t.getD 2 0) (t.getD 3 0)

/-- DECGRP's result: the bytes emitted, the missing ones 0, and their count in RES[25:24] (R87). -/
def decGroupResult (y : List Byte) : Word :=
  (0 : BitVec 6) ++ BitVec.ofNat 2 y.length ++ y.getD 2 0 ++ y.getD 1 0 ++ y.getD 0 0

/-- CLASSIFY's result: RES[7] = pad, RES[6] = nf, RES[5:0] = idx (R87, R104). -/
def classifyResult (idx : Index) (nf pad : Bool) : Word :=
  (BitVec.ofBool pad ++ BitVec.ofBool nf ++ idx).setWidth 32

end Sys2Proof.Machine
end

