-- ==== Sys2Proof/Machine/Ops.lean ====
section
/-! DEFINITION. The shared operations: the buffers' memory, the updates of registers, completion of a
command (the block's "trap entry", 60_exceptions.md rule R184) and reset (70_reset_and_hazards.md
rule R200). -/

namespace Sys2Proof.Machine

/-- Window offset of IBUF (20_memory.md rule R51). -/
def ibufBase : Nat := 0x10000

/-- Window offset of OBUF (R51). -/
def obufBase : Nat := 0x20000

/-- The byte written at an offset since reset, if any. -/
def Memory.get? : Memory → Nat → Option Byte
  | [], _ => none
  | (k, v) :: m, a => if k = a then some v else Memory.get? m a

/-- Write one byte, keeping the offsets rising. -/
def Memory.set : Memory → Nat → Byte → Memory
  | [], a, b => [(a, b)]
  | (k, v) :: m, a, b =>
    if a < k then (a, b) :: (k, v) :: m
    else if a = k then (a, b) :: m
    else (k, v) :: Memory.set m a b

/-- Write the bytes of a list at rising offsets from `a`. -/
def Memory.setList : Memory → Nat → List Byte → Memory
  | m, _, [] => m
  | m, a, b :: bs => Memory.setList (Memory.set m a b) (a + 1) bs

/-- The canonical form: offsets strictly rising. An unlisted cell has not been written since reset. -/
abbrev Memory.wf (m : Memory) : Prop := (m.map Prod.fst).Pairwise (· < ·)

/-- What a cell that is not listed reads as: its free draw (R201). -/
def unlistedByte (epoch a : Nat) : Byte := Config.freeByte epoch a

/-- The byte a buffer cell holds. -/
def State.readByte (s : State) (a : Nat) : Byte := (s.mem.get? a).getD (unlistedByte s.epoch a)

/-- IBUF[i] (R34, R52). -/
def State.ibuf (s : State) (i : Nat) : Byte := s.readByte (ibufBase + i)

/-- OBUF[j] (R35, R52). -/
def State.obuf (s : State) (j : Nat) : Byte := s.readByte (obufBase + j)

/-- The first `n` elements of the frame in IBUF: `MemRead(IBUF, i, 1)` for each i (R61). -/
def State.frame (s : State) (n : Nat) : List Byte := (List.range n).map s.ibuf

/-- Write bytes at rising window offsets. -/
def State.writeBytes (s : State) (a : Nat) (bs : List Byte) : State :=
  { s with mem := s.mem.setList a bs }

/-- `MemWrite(OBUF, j, 1, t[j])` for each element of the output (R61). -/
def State.writeObuf (s : State) (t : List Byte) : State := s.writeBytes obufBase t

/-- CAPR reads CAP at all times (R31). -/
def State.capr (s : State) : Word := BitVec.ofNat 32 s.params.cap

/-- `RES <- v` -/
def State.setRes (s : State) (v : Word) : State := { s with res := v }

/-- `OLEN <- v` -/
def State.setOlen (s : State) (v : Word) : State := { s with olen := v }

/-- Completion with a code: STATUS alone changes (R184 steps 2 to 4). `raise Err(code)` is the
command's error writes and then this. -/
def State.complete (s : State) (c : ErrCode) : State := { s with status := s.status.completed c }

/-- What a word that is no command does: it completes with ERR_BADCMD and changes nothing else (R84,
R185). -/
def State.badCommand (s : State) : State := s.complete .badCmd

/-- Acceptance of a command word (R204). -/
def State.accept (s : State) (w : Word) : State :=
  { s with cmd := w, status := s.status.accepted }

/-- A host write ignored because BUSY = 1: the target keeps its value, WBUSY <- 1 (R205). -/
def State.ignoreBusyWrite (s : State) : State := { s with status := s.status.writeIgnored }

/-- A host write to STATUS (R28): the acknowledgement of rule R186. -/
def State.writeStatus (s : State) (v : Word) : State :=
  { s with status := s.status.writeOneToClear v }

/-- Reset (R200, R201): every register to its reset value, the buffers to fresh draws, a pending
command abandoned. The moves to come and the count of busy draws are the model's own and go on. -/
def State.platformReset (s : State) : State :=
  { s with
    cmd := 0, status := Status.reset, ilen := 0, olen := 0, arg := 0, res := 0
    mem := [], epoch := s.epoch + 1, resp := none }

end Sys2Proof.Machine
end

