-- ==== Sys2Proof/Machine/Bus.lean ====
section
/-! DEFINITION. The host's accesses to the window (20_memory.md): the map, widths and alignment, and
what each read and write does. -/

namespace Sys2Proof.Machine

/-- The bytes of an access. -/
def Width.bytes : Width → Nat
  | .w8 => 1
  | .w16 => 2
  | .w32 => 4

/-- The seven registers of rule R51. -/
inductive Reg where
  | cmd | status | ilen | olen | capr | arg | res
deriving DecidableEq, Repr

/-- A register's window offset (R51). -/
def Reg.offset : Reg → Nat
  | .cmd => 0x00
  | .status => 0x04
  | .ilen => 0x08
  | .olen => 0x0C
  | .capr => 0x10
  | .arg => 0x14
  | .res => 0x18

/-- The register at a window offset, if any (R51). -/
def regAt : Nat → Option Reg
  | 0x00 => some .cmd
  | 0x04 => some .status
  | 0x08 => some .ilen
  | 0x0C => some .olen
  | 0x10 => some .capr
  | 0x14 => some .arg
  | 0x18 => some .res
  | _ => none

/-- What an access reaches. Buffer places are byte offsets within the buffer. -/
inductive Target where
  | reg (r : Reg)
  | ibuf (a : Nat)
  | obuf (a : Nat)
deriving DecidableEq, Repr

/-- A buffer access is allowed: naturally aligned (R55) and within the buffer (R56). -/
def bufferOk (cap : Nat) (w : Width) (a : Nat) : Bool := a % w.bytes == 0 && a + w.bytes ≤ cap

/-- The target of an access of width `w` at `off`, or none where the block answers BusError: a
register access that is not 32-bit (R54), a misaligned or out-of-capacity buffer access (R55, R56), a
reserved offset (R57). A register offset is a multiple of 4, so a misaligned one names no register. -/
def resolve (cap : Nat) (w : Width) (off : Offset) : Option Target :=
  let a := off.toNat
  if a < 0x10000 then
    if w = .w32 then (regAt a).map .reg else none
  else if a < 0x20000 then
    if bufferOk cap w (a - 0x10000) then some (.ibuf (a - 0x10000)) else none
  else if a < 0x30000 then
    if bufferOk cap w (a - 0x20000) then some (.obuf (a - 0x20000)) else none
  else none

/-- The little-endian value of `w` bytes from window offset `a`, zero-extended (R53). -/
def State.readLE (s : State) (w : Width) (a : Nat) : Word :=
  match w with
  | .w8 => (s.readByte a).setWidth 32
  | .w16 => (s.readByte (a + 1) ++ s.readByte a).setWidth 32
  | .w32 => s.readByte (a + 3) ++ s.readByte (a + 2) ++ s.readByte (a + 1) ++ s.readByte a

/-- The bytes a write of width `w` stores, the one for the lowest offset first (R53). -/
def storedBytes (w : Width) (v : Word) : List Byte := (lanes v).take w.bytes

/-- The low bits of a word that an access of width `w` moves. -/
def truncate (w : Width) (v : Word) : Word :=
  match w with
  | .w8 => (v.setWidth 8).setWidth 32
  | .w16 => (v.setWidth 16).setWidth 32
  | .w32 => v

/-- A register's exact value. -/
def State.readReg (s : State) : Reg → Word
  | .cmd => s.cmd
  | .status => s.status.word
  | .ilen => s.ilen
  | .olen => s.olen
  | .capr => s.capr
  | .arg => s.arg
  | .res => s.res

/-- The exact value of a target. -/
def State.readTarget (s : State) (w : Width) : Target → Word
  | .reg r => s.readReg r
  | .ibuf a => s.readLE w (ibufBase + a)
  | .obuf a => s.readLE w (obufBase + a)

/-- The targets whose reads are unspecified while BUSY = 1: OLEN, RES, OBUF (R206). -/
def Target.isOutput : Target → Bool
  | .reg .olen => true
  | .reg .res => true
  | .obuf _ => true
  | _ => false

/-- A host read (R60: no side effect). While BUSY = 1 an output reads as a free draw (R206). -/
def hostRead (w : Width) (off : Offset) (s : State) : State :=
  match resolve s.params.cap w off with
  | none => { s with resp := some .busError }
  | some t =>
    if s.status.busy && t.isOutput then
      { s with resp := some (.data (truncate w (Config.freeWord s.draws))), draws := s.draws + 1 }
    else { s with resp := some (.data (s.readTarget w t)) }

/-- A write to a target the block does not refuse. CMD, ILEN, ARG, IBUF and OBUF ignore it while
BUSY = 1 and set WBUSY (R205); OLEN, CAPR and RES always ignore it (R60). -/
def writeTarget (w : Width) (v : Word) (s : State) : Target → State
  | .reg .cmd => if s.status.busy then s.ignoreBusyWrite else s.accept v
  | .reg .status => s.writeStatus v
  | .reg .ilen => if s.status.busy then s.ignoreBusyWrite else { s with ilen := v }
  | .reg .olen => s
  | .reg .capr => s
  | .reg .arg => if s.status.busy then s.ignoreBusyWrite else { s with arg := v }
  | .reg .res => s
  | .ibuf a => if s.status.busy then s.ignoreBusyWrite else s.writeBytes (ibufBase + a) (storedBytes w v)
  | .obuf a => if s.status.busy then s.ignoreBusyWrite else s.writeBytes (obufBase + a) (storedBytes w v)

/-- A host write. A refused one changes no state (R58). -/
def hostWrite (w : Width) (off : Offset) (v : Word) (s : State) : State :=
  match resolve s.params.cap w off with
  | none => { s with resp := some .busError }
  | some t => { writeTarget w v s t with resp := some .written }

/-- One HOST step (R20). -/
def hostAccess (a : Access) (s : State) : State :=
  match a with
  | .read w off => hostRead w off s
  | .write w off v => hostWrite w off v s

/-- The bus address of a window offset (R50). -/
def busAddress (p : Params) (off : Offset) : Nat := p.base + off.toNat

/-- The window offset a bus address names, if it is in the block's window (R50). -/
def windowOffset (p : Params) (addr : Nat) : Option Offset :=
  if p.base ≤ addr ∧ addr < p.base + 0x40000 then some (BitVec.ofNat 18 (addr - p.base)) else none

end Sys2Proof.Machine
end

