-- ==== Sys2Proof/Machine/Alphabet.lean ====
section
/-! DEFINITION. The Alphabet Table (40_alphabet.md): the ROM, its two lookups, SYMAT and CLASSIFY. -/

namespace Sys2Proof.Machine

/-- ROM[i] (10_state.md rule R22). -/
def romEntry (p : Params) (i : Index) : Byte :=
  if i ≤ 25 then 0x41 + i.setWidth 8
  else if i ≤ 51 then 0x61 + (i.setWidth 8 - 26)
  else if i ≤ 61 then 0x30 + (i.setWidth 8 - 52)
  else if i = 62 then p.sym62
  else p.sym63

/-- `symbolAt` (R100). -/
def symbolAt (p : Params) (i : Index) : Byte := romEntry p i

/-- The 64 indices, rising. -/
def allIndexes : List Index := (List.range 64).map (BitVec.ofNat 6)

/-- The index whose ROM entry is `c`, found in the ROM itself (R25: no second table). -/
def findIndex (p : Params) (c : Byte) : Option Index := allIndexes.find? fun i => romEntry p i == c

/-- The triple of rule R101. -/
structure LutResult where
  idx : Index
  nf  : Bool
  pad : Bool
deriving DecidableEq, Repr

/-- `classify` (R101). -/
def classify (p : Params) (c : Byte) : LutResult :=
  match findIndex p c with
  | some i => ⟨i, false, false⟩
  | none => if c = p.pad then ⟨0, true, true⟩ else ⟨0, true, false⟩

/-- NOT_FOUND (R101). -/
def notFound : BitVec 7 := 0x40

/-- `indexOf` (R101). -/
def indexOf (p : Params) (c : Byte) : BitVec 7 :=
  if (classify p c).nf then notFound else (classify p c).idx.setWidth 7

/-- `isPad` (R101). -/
def isPad (p : Params) (c : Byte) : Bool := (classify p c).pad

/-- `isMember` (R101). -/
def isMember (p : Params) (c : Byte) : Bool := !(classify p c).nf

/-- SYMAT (R103). -/
def execSymat (s : State) : Host.Outcome State Fault Refusal :=
  .next ((s.setRes ((symbolAt s.params (argIndex s.arg)).setWidth 32)).complete .ok)

/-- CLASSIFY (R104). -/
def execClassify (s : State) : Host.Outcome State Fault Refusal :=
  let r := classify s.params (lane s.arg 0)
  .next ((s.setRes (classifyResult r.idx r.nf r.pad)).complete .ok)

end Sys2Proof.Machine
end

