-- ==== Sys2Proof/Machine/Validator.lean ====
section
/-! DEFINITION. The Validator (41_validator.md): the classification of a text, and VALIDATE. -/

namespace Sys2Proof.Machine

/-- The length of the trailing padding run (R121). -/
def trailingPads (p : Params) (t : List Byte) : Nat := (t.reverse.takeWhile (isPad p)).length

/-- A code that is neither a member nor PAD (R120, R123). -/
def isOutsider (p : Params) (c : Byte) : Bool := !isMember p c && !isPad p c

/-- `validate` (R120), with the priority of rule R122. -/
def validate (p : Params) (t : List Byte) : ErrCode :=
  if t.length % 4 ≠ 0 then .invalidLength
  else if t.any (isOutsider p) then .invalidSymbol
  else if trailingPads p t > 2 then .misplacedPadding
  else if (t.take (t.length - trailingPads p t)).any (isPad p) then .misplacedPadding
  else .ok

/-- The code of a frame command that reads a text: capacity comes first (R183), then `validate`. -/
def textCode (s : State) : ErrCode :=
  if s.ilen.toNat > s.params.cap then .capacity else validate s.params (s.frame s.ilen.toNat)

/-- VALIDATE (R124): STATUS alone changes. -/
def execValidate (s : State) : Host.Outcome State Fault Refusal :=
  .next (s.complete (textCode s))

end Sys2Proof.Machine
end

