-- ==== Sys2Proof/Machine/Decoder.lean ====
section
/-! DEFINITION. The Decoder (43_decoder.md): the unpacker, DECGRP and DECODE. -/

namespace Sys2Proof.Machine

/-- The 8-bit value of a real symbol: `indexOf`, which is 0..63 on every symbol the unpacker is given
(R160). -/
def symbolValue (p : Params) (c : Byte) : Byte := (indexOf p c).setWidth 8

/-- b0 (R160). -/
def unpackB0 (v0 v1 : Byte) : Byte := (v0 <<< 2) ||| (v1 >>> 4)

/-- b1 (R160). -/
def unpackB1 (v1 v2 : Byte) : Byte := ((v1 &&& 0x0F) <<< 4) ||| (v2 >>> 2)

/-- b2 (R160). -/
def unpackB2 (v2 v3 : Byte) : Byte := ((v2 &&& 0x03) <<< 6) ||| v3

/-- `decGroup` (R160) on a group that has `pads` trailing PADs, 0, 1 or 2. -/
def decGroup (p : Params) (pads : Nat) (s0 s1 s2 s3 : Byte) : List Byte :=
  let v := symbolValue p
  match pads with
  | 0 => [unpackB0 (v s0) (v s1), unpackB1 (v s1) (v s2), unpackB2 (v s2) (v s3)]
  | 1 => [unpackB0 (v s0) (v s1), unpackB1 (v s1) (v s2)]
  | _ => [unpackB0 (v s0) (v s1)]

/-- Steps 2 to 4 of rule R161: the groups of a text in order, the last one with `pads` trailing PADs. -/
def decodeGroups (p : Params) (pads : Nat) : List Byte → List Byte
  | s0 :: s1 :: s2 :: s3 :: rest =>
    decGroup p (if rest.isEmpty then pads else 0) s0 s1 s2 s3 ++ decodeGroups p pads rest
  | _ => []

/-- `decode` on a text (R161): validation first, and no bytes if it fails. -/
def decodeText (p : Params) (t : List Byte) : Except ErrCode (List Byte) :=
  match validate p t with
  | .ok => .ok (decodeGroups p (trailingPads p t) t)
  | r => .error r

/-- The checks of DECGRP (R165), in their order. -/
def groupCode (p : Params) (final : Bool) (g : List Byte) : ErrCode :=
  if g.any (isOutsider p) then .invalidSymbol
  else if trailingPads p g > 2 then .misplacedPadding
  else if (g.take (4 - trailingPads p g)).any (isPad p) then .misplacedPadding
  else if trailingPads p g > 0 ∧ final = false then .misplacedPadding
  else .ok

/-- The bytes of a group that passes its checks (R160, R165). -/
def groupBytes (p : Params) (g : List Byte) : List Byte := decodeGroups p (trailingPads p g) g

/-- DECGRP's result: the bytes and their count, or 0 on an error (R165, R185). -/
def groupResult (p : Params) (final : Bool) (g : List Byte) : Word :=
  if groupCode p final g = .ok then decGroupResult (groupBytes p g) else 0

/-- DECGRP(F) (R165). -/
def execDecgrp (final : Bool) (s : State) : Host.Outcome State Fault Refusal :=
  .next ((s.setRes (groupResult s.params final (lanes s.arg))).complete
    (groupCode s.params final (lanes s.arg)))

/-- DECODE's effect (R166): validation before any output; on an error OLEN <- 0 and no OBUF byte. -/
def decodeFrame (s : State) : State :=
  match textCode s with
  | .ok =>
    let t := s.frame s.ilen.toNat
    let y := decodeGroups s.params (trailingPads s.params t) t
    ((s.writeObuf y).setOlen (BitVec.ofNat 32 y.length)).complete .ok
  | c => (s.setOlen 0).complete c

/-- DECODE (R166). -/
def execDecode (s : State) : Host.Outcome State Fault Refusal := .next (decodeFrame s)

end Sys2Proof.Machine
end

