-- ==== Sys2Proof/Machine/Encoder.lean ====
section
/-! DEFINITION. The Encoder (42_encoder.md): the packer, ENCGRP and ENCODE. -/

namespace Sys2Proof.Machine

/-- v0 (R140). -/
def packV0 (b0 : Byte) : Index := ((b0 &&& 0xFC) >>> 2).setWidth 6

/-- v1 (R140). -/
def packV1 (b0 b1 : Byte) : Index := (((b0 &&& 0x03) <<< 4) ||| ((b1 &&& 0xF0) >>> 4)).setWidth 6

/-- v2 (R140). -/
def packV2 (b1 b2 : Byte) : Index := (((b1 &&& 0x0F) <<< 2) ||| ((b2 &&& 0xC0) >>> 6)).setWidth 6

/-- v3 (R140). -/
def packV3 (b2 : Byte) : Index := (b2 &&& 0x3F).setWidth 6

/-- `encGroup3` (R140). -/
def encGroup3 (p : Params) (b0 b1 b2 : Byte) : List Byte :=
  [symbolAt p (packV0 b0), symbolAt p (packV1 b0 b1), symbolAt p (packV2 b1 b2), symbolAt p (packV3 b2)]

/-- `encGroup2` (R141). -/
def encGroup2 (p : Params) (b0 b1 : Byte) : List Byte :=
  [symbolAt p (packV0 b0), symbolAt p (packV1 b0 b1),
   symbolAt p (((b1 &&& 0x0F) <<< 2).setWidth 6), p.pad]

/-- `encGroup1` (R142). -/
def encGroup1 (p : Params) (b0 : Byte) : List Byte :=
  [symbolAt p (packV0 b0), symbolAt p (((b0 &&& 0x03) <<< 4).setWidth 6), p.pad, p.pad]

/-- `encode` on a byte sequence (R143). -/
def encodeBytes (p : Params) : List Byte → List Byte
  | [] => []
  | [b0] => encGroup1 p b0
  | [b0, b1] => encGroup2 p b0 b1
  | b0 :: b1 :: b2 :: rest => encGroup3 p b0 b1 b2 ++ encodeBytes p rest

/-- The length of the encoding of `n` bytes: 4 * ceil(n / 3), on unbounded integers (R145). -/
def encodedLength (n : Nat) : Nat := 4 * ((n + 2) / 3)

/-- The symbols of the group of `n` bytes held in ARG; bytes at positions `n` and above are ignored
(R144). -/
def encGroupOfArg (p : Params) (n : BitVec 2) (arg : Word) : List Byte :=
  match n.toNat with
  | 1 => encGroup1 p (lane arg 0)
  | 2 => encGroup2 p (lane arg 0) (lane arg 1)
  | _ => encGroup3 p (lane arg 0) (lane arg 1) (lane arg 2)

/-- ENCGRP(N) (R144). N = 0 has no ENCGRP word: its word is BADCMD (R83, R85), and so is its term. -/
def execEncgrp (n : BitVec 2) (s : State) : Host.Outcome State Fault Refusal :=
  if n = 0 then .next s.badCommand
  else .next ((s.setRes (encGroupResult (encGroupOfArg s.params n s.arg))).complete .ok)

/-- ENCODE's effect (R145). -/
def encodeFrame (s : State) : State :=
  let n := s.ilen.toNat
  let m := encodedLength n
  if n > s.params.cap ∨ m > s.params.cap then (s.setOlen 0).complete .capacity
  else
    ((s.writeObuf (encodeBytes s.params (s.frame n))).setOlen (BitVec.ofNat 32 m)).complete .ok

/-- ENCODE (R145). -/
def execEncode (s : State) : Host.Outcome State Fault Refusal := .next (encodeFrame s)

end Sys2Proof.Machine
end

