-- ==== Sys2Proof/Machine/Dispatch.lean ====
section
/-! DEFINITION. One arm per command: the BLOCK step's dispatch (70_reset_and_hazards.md rule R204). -/

namespace Sys2Proof.Machine

def exec (i : Instr) (s : State) : Host.Outcome State Fault Refusal :=
  match i with
  | .symat => Sys2Proof.Machine.execSymat s
  | .classify => Sys2Proof.Machine.execClassify s
  | .validate => Sys2Proof.Machine.execValidate s
  | .encgrp n => Sys2Proof.Machine.execEncgrp n s
  | .encode => Sys2Proof.Machine.execEncode s
  | .decgrp final => Sys2Proof.Machine.execDecgrp final s
  | .decode => Sys2Proof.Machine.execDecode s

end Sys2Proof.Machine
end

