-- ==== Sys2Proof/Machine/Block.lean ====
section
/-! DEFINITION. The BLOCK step and the choice of the next move (70_reset_and_hazards.md rule R204,
10_state.md rule R20). -/

namespace Sys2Proof.Machine

/-- The BLOCK step, enabled iff BUSY = 1 (R204): the pending command, or BADCMD. With BUSY = 0 the
block is idle (60_exceptions.md rule R193). -/
def blockStep (s : State) : Host.Outcome State Fault Refusal :=
  if s.status.busy then
    match decode s.cmd with
    | .ok i => exec i s
    | .error _ => .next s.badCommand
  else .next s

/-- One move: the next one of `turns`; with none left, only BLOCK can move. -/
def takeTurn (s : State) : Host.Outcome State Fault Refusal :=
  match s.turns with
  | [] => blockStep s
  | .block :: rest => blockStep { s with turns := rest }
  | .access a :: rest => .next (hostAccess a { s with turns := rest })
  | .reset :: rest => .next (State.platformReset { s with turns := rest })
  | .accessInReset _ :: _ => .refused .accessInReset

/-- The command word `w` accepted by the idle block (R204), with BLOCK to move next. -/
def State.acceptNext (s : State) (w : Word) : State := { s.accept w with turns := .block :: s.turns }

end Sys2Proof.Machine
end

