-- ==== Sys2Proof/Machine/Step.lean ====
section
/-! DEFINITION. The step: one move of HOST, BLOCK or the platform (10_state.md rule R20,
70_reset_and_hazards.md rule R204). -/

namespace Sys2Proof.Machine

/-- One step of the machine. -/
def step (s : State) : Host.Outcome State Fault Refusal := takeTurn s

/-- `s` with the command word `w` accepted and BLOCK to move next, so that the very next step runs it.
The block fetches nothing (20_memory.md rule R66): a word comes to run by the host's write to CMD. -/
def State.withFetchWord (s : State) (nbits w : Nat) : State :=
  s.acceptNext (BitVec.ofNat 32 (w % 2 ^ nbits))

end Sys2Proof.Machine
end

