-- ==== Sys2Proof/Machine/HostProgram.lean ====
section
/-! DEFINITION. Host programs (30_encoding.md rules R90 and R91): the HOST agent as a program that
drives the block by bus accesses. "These are host instructions; they are not block state" (R91), so
they stand above State. -/

namespace Sys2Proof.Machine

/-- The operators of host expressions (R91: those of 00_scope.md rule R11, and `+`, `*`, `<`).
DESIGN CHOICE (assumption log 19): the `/` that rule R11 names inside `ceil(n/3)` is an operator of its own,
`div`; the spec is not clear. -/
inductive HostOp where
  | and | or | shl | shr | add | mul | div | mod | lt | eq | ne
deriving DecidableEq, Repr

/-- A host expression on 32-bit unsigned values (R91). -/
inductive HostExpr where
  | const (v : Word)
  | pad
  | sym62
  | sym63
  | var (x : Nat)
  /-- `x[k]`, one element of a host array. -/
  | elem (x : Nat) (k : HostExpr)
  /-- `e[hi:lo]` (R10); `e[i]` is `e[i:i]`. -/
  | bits (e : HostExpr) (hi lo : Nat)
  /-- `ceil(e / 3)` (R11). -/
  | ceilThird (e : HostExpr)
  | op (o : HostOp) (a b : HostExpr)
deriving DecidableEq, Repr

/-- Where a host access goes (R91). -/
inductive Place where
  | reg (r : Reg)
  | ibuf (a : HostExpr)
  | obuf (a : HostExpr)
  | raw (off : HostExpr)
deriving DecidableEq, Repr

/-- A host variable or one element of a host array. -/
inductive HostDest where
  | var (x : Nat)
  | elem (x : Nat) (k : HostExpr)
deriving DecidableEq, Repr

/-- One line of a host program (R91). -/
inductive HostStmt where
  | wr (w : Width) (p : Place) (v : HostExpr)
  | rd (w : Width) (p : Place) (x : HostDest)
  | assign (x : HostDest) (e : HostExpr)
  | ifGoto (c : HostExpr) (l : Nat)
  | goto (l : Nat)
  | label (l : Nat)
deriving DecidableEq, Repr

/-- A block and the host program that drives it. -/
structure HostSys where
  block : State
  prog  : List HostStmt
  /-- The line to run next. -/
  line  : Nat
  /-- The host's variables: name, element if an array's, value; the latest assignment first. -/
  vars  : List (Nat × Option Word × Word)
  /-- Who moves next: none is the host program, some t another agent's move (BLOCK's, the platform's,
  a second host's). Once it is empty BLOCK moves whenever it can, the eager schedule of
  95_test_vectors.md section 3. -/
  sched : List (Option Turn)
deriving DecidableEq, Repr

/-- A truth value as a host value. DESIGN CHOICE (assumption log 19): rule R11 says that `==` and `!=` compare
and gives no number for a comparison; it is 1 where it holds and 0 where it does not, as in C. -/
def hostBool (b : Bool) : Word := if b then 1 else 0

/-- The value of an operator (R11, R91). Where rule R11 gives no value (a shift by 32 or more, a
division or remainder by 0) the result is free, each operator's by a constant of its own. That `+`, `*` and
`<<` keep the low 32 bits is DEDUCED from R91's "32-bit unsigned values" (assumption log 19). -/
def HostOp.eval (o : HostOp) (a b : Word) : Word :=
  match o with
  | .and => a &&& b
  | .or => a ||| b
  | .shl => if b < 32 then a <<< b else Config.wideShl a b
  | .shr => if b < 32 then a >>> b else Config.wideShr a b
  | .add => a + b
  | .mul => a * b
  | .div => if b = 0 then Config.divByZero a else a / b
  | .mod => if b = 0 then Config.modByZero a else a % b
  | .lt => hostBool (a < b)
  | .eq => hostBool (a == b)
  | .ne => hostBool (a != b)

/-- A variable's value; free if the program has not assigned it. -/
def readVar (vars : List (Nat × Option Word × Word)) (x : Nat) (k : Option Word) : Word :=
  match vars.find? fun v => v.1 == x && v.2.1 == k with
  | some v => v.2.2
  | none => Config.unassigned x k

/-- The field `v[hi:lo]` (R10), zero-extended; free where there is no such field of a 32-bit value. -/
def hostField (v : Word) (hi lo : Nat) : Word :=
  if lo ≤ hi ∧ hi < 32 then (BitVec.extractLsb' lo (hi + 1 - lo) v).setWidth 32 else Config.noField v hi lo

/-- The value of an expression; it makes no bus access (R91). The sum in `ceil(e / 3)`, that is `(e + 2) / 3`,
is taken exactly and does not wrap: DESIGN CHOICE (assumption log 19). -/
def HostExpr.eval (p : Params) (vars : List (Nat × Option Word × Word)) : HostExpr → Word
  | .const v => v
  | .pad => p.pad.setWidth 32
  | .sym62 => p.sym62.setWidth 32
  | .sym63 => p.sym63.setWidth 32
  | .var x => readVar vars x none
  | .elem x k => readVar vars x (some (k.eval p vars))
  | .bits e hi lo => hostField (e.eval p vars) hi lo
  | .ceilThird e => BitVec.ofNat 32 (((e.eval p vars).toNat + 2) / 3)
  | .op o a b => o.eval (a.eval p vars) (b.eval p vars)

/-- The window offset of a place, if it is in the window (R50, R91). The sum of a buffer's base and a byte
offset is taken exactly, so an offset beyond one buffer's part of the window names a place after it: DESIGN
CHOICE (assumption log 19). -/
def Place.offset (p : Params) (vars : List (Nat × Option Word × Word)) (pl : Place) : Option Offset :=
  let off := match pl with
    | .reg r => r.offset
    | .ibuf a => ibufBase + (a.eval p vars).toNat
    | .obuf a => obufBase + (a.eval p vars).toNat
    | .raw o => (o.eval p vars).toNat
  if off < 0x40000 then some (BitVec.ofNat 18 off) else none

/-- The line a label stands on: the first of them if it stands on several, past the end of the program if it
stands nowhere (DESIGN CHOICE, assumption log 13). -/
def labelLine (prog : List HostStmt) (l : Nat) : Nat := prog.findIdx (· == .label l)

/-- Assign a host variable. -/
def HostSys.assign (h : HostSys) (x : HostDest) (v : Word) : HostSys :=
  match x with
  | .var n => { h with vars := (n, none, v) :: h.vars }
  | .elem n k => { h with vars := (n, some (k.eval h.block.params h.vars), v) :: h.vars }

/-- One step of the block with `t` as its next move. -/
def HostSys.blockMove (h : HostSys) (t : Turn) : Host.Outcome HostSys Fault Refusal :=
  match step { h.block with turns := t :: h.block.turns } with
  | .next b => .next { h with block := b }
  | .fault f => .fault f
  | .refused r => .refused r

/-- One bus access, and then what the host does with the response. A refused read gives no data, so
the variable keeps its value. -/
def HostSys.access (h : HostSys) (a : Access) (x : Option HostDest) : Host.Outcome HostSys Fault Refusal :=
  match h.blockMove (.access a) with
  | .next g =>
    match x, g.block.resp with
    | some d, some (.data v) => .next { g.assign d v with line := g.line + 1 }
    | _, _ => .next { g with line := g.line + 1 }
  | o => o

/-- The host's line `line` (R91). A program that has ended makes no move. A condition holds iff its value is
not 0: DESIGN CHOICE (assumption log 19), as R91 does not say when a condition that is no comparison holds. -/
def HostSys.hostMove (h : HostSys) : Host.Outcome HostSys Fault Refusal :=
  let val := fun e : HostExpr => e.eval h.block.params h.vars
  match h.prog[h.line]? with
  | none => .next h
  | some (.wr w p v) =>
    match p.offset h.block.params h.vars with
    | some off => h.access (.write w off (val v)) none
    | none => .refused .outsideWindow
  | some (.rd w p x) =>
    match p.offset h.block.params h.vars with
    | some off => h.access (.read w off) (some x)
    | none => .refused .outsideWindow
  | some (.assign x e) => .next { h.assign x (val e) with line := h.line + 1 }
  | some (.ifGoto c l) =>
    .next { h with line := if val c != 0 then labelLine h.prog l else h.line + 1 }
  | some (.goto l) => .next { h with line := labelLine h.prog l }
  | some (.label _) => .next { h with line := h.line + 1 }

/-- One move of the host and its block, as the schedule says. -/
def HostSys.step (h : HostSys) : Host.Outcome HostSys Fault Refusal :=
  match h.sched with
  | some t :: r => HostSys.blockMove { h with sched := r } t
  | none :: r => HostSys.hostMove { h with sched := r }
  | [] => if h.block.status.busy then h.blockMove .block else h.hostMove

/-- `n` moves, stopping at the first refusal. -/
def HostSys.run : Nat → HostSys → Host.Outcome HostSys Fault Refusal
  | 0, h => .next h
  | n + 1, h =>
    match h.step with
    | .next g => HostSys.run n g
    | o => o

/-! The pseudo-instructions of rule R91. -/

/-- `issue <cmd>` -/
def pseudoIssue (i : Instr) : List HostStmt := [.wr .w32 (.reg .cmd) (.const (encode i))]

/-- `wait`, with a label and a variable the program does not use otherwise -/
def pseudoWait (l t : Nat) : List HostStmt :=
  [.label l, .rd .w32 (.reg .status) (.var t),
   .ifGoto (.op .eq (.bits (.var t) 0 0) (.const 1)) l]

/-- `run <cmd>` -/
def pseudoRun (i : Instr) (l t : Nat) : List HostStmt := pseudoIssue i ++ pseudoWait l t

/-- `ack` -/
def pseudoAck : List HostStmt := [.wr .w32 (.reg .status) (.const 0x00000002)]

/-- `clrw` -/
def pseudoClrw : List HostStmt := [.wr .w32 (.reg .status) (.const 0x00000100)]

/-- `put IBUF, [x0, .., xk]` -/
def pseudoPut (xs : List HostExpr) : List HostStmt :=
  xs.zipIdx.map fun x => .wr .w8 (.ibuf (.const (BitVec.ofNat 32 x.2))) x.1

/-- `fill OBUF, v, k` -/
def pseudoFill (v : HostExpr) (k : Nat) : List HostStmt :=
  (List.range k).map fun j => .wr .w8 (.obuf (.const (BitVec.ofNat 32 j))) v

end Sys2Proof.Machine
end

