-- ==== Sys2Proof/Safety.lean ====
section
/-! DEFINITION. What a good state of the block is, and the terms the statements use. -/

namespace Sys2Proof.Machine

/-- A window offset inside IBUF or OBUF (20_memory.md rule R51). -/
abbrev inBuffers (cap a : Nat) : Prop :=
  (ibufBase ≤ a ∧ a < ibufBase + cap) ∨ (obufBase ≤ a ∧ a < obufBase + cap)

/-- The invariant every step keeps: the parameters are admissible (00_scope.md rules R7 and R8), the
memory is canonical and lists only buffer bytes, ERR is one of 0..5 and BUSY excludes DONE and a
non-zero ERR (10_state.md rule R28), OLEN is at most CAP. -/
structure State.Inv (s : State) : Prop where
  admissible : s.params.Admissible
  memWf      : s.mem.wf
  memInside  : ∀ c ∈ s.mem, inBuffers s.params.cap c.1
  errLegal   : s.status.err ≤ 5
  busyClean  : s.status.busy = true → s.status.done = false ∧ s.status.err = 0
  olenFits   : s.olen.toNat ≤ s.params.cap

/-- What a step leaves alone besides the registers: the parameters and the model's own fields. -/
abbrev SameContext (s t : State) : Prop :=
  t.params = s.params ∧ t.epoch = s.epoch ∧ t.draws = s.draws ∧ t.turns = s.turns ∧ t.resp = s.resp

/-- Every buffer byte reads as before. -/
def SameBytes (s t : State) : Prop := ∀ a, t.readByte a = s.readByte a

/-- STATUS after a completion with a code: BUSY 0, DONE 1, ERR the code, WBUSY as before
(60_exceptions.md rule R184). -/
abbrev CompletedWith (s t : State) (c : BitVec 4) : Prop :=
  t.status = { busy := false, done := true, err := c, wbusy := s.status.wbusy }

/-- The codes a command can complete with (60_exceptions.md rule R182). -/
def possibleCodes : Instr → List (BitVec 4)
  | .symat => [0]
  | .classify => [0]
  | .validate => [0, 1, 2, 3, 4]
  | .encgrp _ => [0]
  | .encode => [0, 4]
  | .decgrp _ => [0, 2, 3]
  | .decode => [0, 1, 2, 3, 4]

/-- A code that is neither in ALPHA nor PAD. -/
abbrev Outsider (p : Params) (c : Byte) : Prop := isMember p c = false ∧ isPad p c = false

/-- A final group of a valid text (41_validator.md rule R125): four members, or three and a PAD, or
two and two PADs. -/
def FinalGroup (p : Params) (g : List Byte) : Prop :=
  ∃ a b c d, g = [a, b, c, d] ∧ isMember p a = true ∧ isMember p b = true ∧
    ((isMember p c = true ∧ isMember p d = true) ∨ (isMember p c = true ∧ isPad p d = true) ∨
      (isPad p c = true ∧ isPad p d = true))

/-- A text rule R125 accepts: empty, or whole groups of members and then a final group. -/
def ValidText (p : Params) (t : List Byte) : Prop :=
  t = [] ∨ ∃ body g, t = body ++ g ∧ body.length % 4 = 0 ∧ (∀ c ∈ body, isMember p c = true) ∧
    FinalGroup p g

/-- The groups ENCGRP is given for a frame (42_encoder.md rule R148): N and the word for ARG. -/
def encodeCalls : List Byte → List (BitVec 2 × Word)
  | [] => []
  | [b0] => [(1, ofLanes b0 0 0 0)]
  | [b0, b1] => [(2, ofLanes b0 b1 0 0)]
  | b0 :: b1 :: b2 :: rest => (3, ofLanes b0 b1 b2 0) :: encodeCalls rest

/-- The groups DECGRP is given for a text (43_decoder.md rule R167): FINAL on the last one only, and
the word for ARG. -/
def decodeCalls : List Byte → List (Bool × Word)
  | s0 :: s1 :: s2 :: s3 :: rest => (rest.isEmpty, ofLanes s0 s1 s2 s3) :: decodeCalls rest
  | _ => []

/-- The four lanes of RES after a command, or none if it did not end in a next state. -/
def resLanes : Host.Outcome State Fault Refusal → List Byte
  | .next t => lanes t.res
  | _ => []

/-- The bytes DECGRP put in RES: the first RES[25:24] of its lanes (R167). -/
def resBytes : Host.Outcome State Fault Refusal → List Byte
  | .next t => (lanes t.res).take (t.res.extractLsb' 24 2).toNat
  | _ => []

/-- A command ended in a next state with ERR = 0. -/
def succeeded : Host.Outcome State Fault Refusal → Bool
  | .next t => t.status.err == 0
  | _ => false

/-- The frame in IBUF is `x`: ILEN is its length and IBUF[i] its element i (20_memory.md rule R52). -/
def FrameIs (s : State) (x : List Byte) : Prop :=
  s.ilen.toNat = x.length ∧ ∀ i (h : i < x.length), s.ibuf i = x[i]

/-- A buffer access the block performs: naturally aligned and wholly inside a buffer (20_memory.md
rules R51, R55, R56). -/
abbrev BufferAccess (cap : Nat) (w : Width) (off : Offset) : Prop :=
  off.toNat % w.bytes = 0 ∧
    ((0x10000 ≤ off.toNat ∧ off.toNat + w.bytes ≤ 0x10000 + cap) ∨
      (0x20000 ≤ off.toNat ∧ off.toNat + w.bytes ≤ 0x20000 + cap))

/-- A register access the block performs: 32 bits wide, aligned, at one of the seven registers
(R51, R54). -/
abbrev RegisterAccess (w : Width) (off : Offset) : Prop :=
  w = .w32 ∧ off.toNat % 4 = 0 ∧ off.toNat < 0x1C

/-- The width and offset of an access. -/
def Access.place : Access → Width × Offset
  | .read w off => (w, off)
  | .write w off _ => (w, off)

/-- The 256 codes, rising. -/
def allCodes : List Byte := (List.range 256).map (BitVec.ofNat 8)

/-- The unit commands: SYMAT, CLASSIFY, ENCGRP and DECGRP (30_encoding.md rule R81). -/
def isUnit : Instr → Bool
  | .symat => true
  | .classify => true
  | .validate => false
  | .encgrp _ => true
  | .encode => false
  | .decgrp _ => true
  | .decode => false

/-- The host program is about to run the lines `ls` with the block idle, under the eager schedule of
95_test_vectors.md section 3. -/
def RunsLines (h : HostSys) (ls : List HostStmt) : Prop :=
  h.sched = [] ∧ h.block.status.busy = false ∧ ls <+: h.prog.drop h.line

/-- The first line of a program with the label `l`. -/
def LabelStands (prog : List HostStmt) (l m : Nat) : Prop :=
  prog[m]? = some (.label l) ∧ ∀ j, j < m → prog[j]? ≠ some (.label l)

/-- The moves still to come are host accesses and BLOCK turns only. -/
def ordinaryTurns (ts : List Turn) : Bool :=
  ts.all fun t => match t with
    | .access _ => true
    | .block => true
    | .reset => false
    | .accessInReset _ => false

end Sys2Proof.Machine
end

