-- ==== Sys2Proof/Certificates/Slice0/Obligations.lean ====
section
/-! DEFINITION. The statements for the provers. A statement's docstring names the rules of spec/ it
rests on. -/

open Sys2Proof Sys2Proof.Machine

/-! ## The command word -/

/-- The ten legal words of 30_encoding.md rule R84, each written out from R84's table, and what each
stands for. -/
def Obligations.LegalWordsDecode : Prop :=
  decode 0x00000001 = .ok .symat ∧ decode 0x00000002 = .ok .classify ∧
  decode 0x00000003 = .ok .validate ∧ decode 0x00010004 = .ok (.encgrp 1) ∧
  decode 0x00020004 = .ok (.encgrp 2) ∧ decode 0x00030004 = .ok (.encgrp 3) ∧
  decode 0x00000005 = .ok .encode ∧ decode 0x00000006 = .ok (.decgrp false) ∧
  decode 0x00000106 = .ok (.decgrp true) ∧ decode 0x00000007 = .ok .decode

/-- R84: a word has a command iff it matches a row of the table, and the legal words are exactly ten. -/
def Obligations.LegalIffTableRow : Prop :=
  ∀ w : Word, ((∃ i, decode w = .ok i) ↔ legalWord w = true) ∧
    (legalWord w = true ↔ w ∈ ([0x00000001, 0x00000002, 0x00000003, 0x00010004, 0x00020004,
      0x00030004, 0x00000005, 0x00000006, 0x00000106, 0x00000007] : List Word))

/-- R85, said on the number the word is: reserved bits first, then OP, FINAL and N. -/
def Obligations.DecodeFollowsFields : Prop :=
  ∀ (w : Word) (op final n : Nat),
    op = w.toNat % 16 → final = w.toNat / 256 % 2 → n = w.toNat / 65536 % 4 →
    ((w.toNat / 16 % 16 ≠ 0 ∨ w.toNat / 512 % 128 ≠ 0 ∨ w.toNat / 262144 ≠ 0) →
      ∃ e, decode w = .error e) ∧
    (w.toNat / 16 % 16 = 0 → w.toNat / 512 % 128 = 0 → w.toNat / 262144 = 0 →
      (op = 1 → final = 0 → n = 0 → decode w = .ok .symat) ∧
      (op = 2 → final = 0 → n = 0 → decode w = .ok .classify) ∧
      (op = 3 → final = 0 → n = 0 → decode w = .ok .validate) ∧
      (op = 4 → final = 0 → n ≠ 0 → decode w = .ok (.encgrp (BitVec.ofNat 2 n))) ∧
      (op = 5 → final = 0 → n = 0 → decode w = .ok .encode) ∧
      (op = 6 → n = 0 → decode w = .ok (.decgrp (final == 1))) ∧
      (op = 7 → final = 0 → n = 0 → decode w = .ok .decode) ∧
      ((op = 0 ∨ 8 ≤ op ∨ (op ≠ 6 ∧ final ≠ 0) ∨ (op ≠ 4 ∧ n ≠ 0) ∨ (op = 4 ∧ n = 0)) →
        ∃ e, decode w = .error e))

/-- Decoding and encoding are inverse to each other: a word decodes to a command exactly if the
command is well-formed and the word is its encoding (R84, R85, R88). -/
def Obligations.DecodeEncodeAgree : Prop :=
  ∀ (w : Word) (i : Instr), decode w = .ok i ↔ i.wellFormed = true ∧ encode i = w

/-- R90: the spellings of the ten commands, each with the word of R84 that it stands for; every well-formed
command's text stands for its word. -/
def Obligations.TextStandsForWord : Prop :=
  (assemble "SYMAT" = some 0x00000001 ∧ assemble "CLASSIFY" = some 0x00000002 ∧
    assemble "VALIDATE" = some 0x00000003 ∧ assemble "ENCGRP n=1" = some 0x00010004 ∧
    assemble "ENCGRP n=2" = some 0x00020004 ∧ assemble "ENCGRP n=3" = some 0x00030004 ∧
    assemble "ENCODE" = some 0x00000005 ∧ assemble "DECGRP" = some 0x00000006 ∧
    assemble "DECGRP.final" = some 0x00000106 ∧ assemble "DECODE" = some 0x00000007) ∧
  (Instr.text .symat = "SYMAT" ∧ Instr.text .classify = "CLASSIFY" ∧ Instr.text .validate = "VALIDATE" ∧
    Instr.text (.encgrp 1) = "ENCGRP n=1" ∧ Instr.text (.encgrp 2) = "ENCGRP n=2" ∧
    Instr.text (.encgrp 3) = "ENCGRP n=3" ∧ Instr.text .encode = "ENCODE" ∧
    Instr.text (.decgrp false) = "DECGRP" ∧ Instr.text (.decgrp true) = "DECGRP.final" ∧
    Instr.text .decode = "DECODE") ∧
  ∀ i : Instr, i.wellFormed = true → assemble i.text = some (encode i)

/-! ## The Alphabet Table -/

/-- 10_state.md rule R22: the ROM in closed form. -/
def Obligations.RomClosedForm : Prop :=
  ∀ (p : Params) (i : Index),
    (i.toNat ≤ 25 → (symbolAt p i).toNat = 0x41 + i.toNat) ∧
    (26 ≤ i.toNat → i.toNat ≤ 51 → (symbolAt p i).toNat = 0x61 + (i.toNat - 26)) ∧
    (52 ≤ i.toNat → i.toNat ≤ 61 → (symbolAt p i).toNat = 0x30 + (i.toNat - 52)) ∧
    (i.toNat = 62 → symbolAt p i = p.sym62) ∧ (i.toNat = 63 → symbolAt p i = p.sym63)

/-- 10_state.md rule R25 and 00_scope.md rule R7: the 64 codes are distinct, and none of them is PAD. -/
def Obligations.RomInjectiveWithoutPad : Prop :=
  ∀ p : Params, p.SymbolsOk →
    (∀ i j, symbolAt p i = symbolAt p j → i = j) ∧ ∀ i, symbolAt p i ≠ p.pad

/-- 40_alphabet.md rule R101: the triple by its three arms, its closed form on the codes, and the three
lookups read from it. -/
def Obligations.ClassifyTriple : Prop :=
  ∀ (p : Params) (c : Byte), p.SymbolsOk →
    (∀ i, symbolAt p i = c → classify p c = ⟨i, false, false⟩) ∧
    (c = p.pad → classify p c = ⟨0, true, true⟩) ∧
    ((∀ i, symbolAt p i ≠ c) → c ≠ p.pad → classify p c = ⟨0, true, false⟩) ∧
    (0x41 ≤ c.toNat → c.toNat ≤ 0x5A → (classify p c).idx.toNat = c.toNat - 0x41 ∧ isMember p c = true) ∧
    (0x61 ≤ c.toNat → c.toNat ≤ 0x7A → (classify p c).idx.toNat = c.toNat - 0x61 + 26 ∧ isMember p c = true) ∧
    (0x30 ≤ c.toNat → c.toNat ≤ 0x39 → (classify p c).idx.toNat = c.toNat - 0x30 + 52 ∧ isMember p c = true) ∧
    (c = p.sym62 → (classify p c).idx = 62 ∧ isMember p c = true) ∧
    (c = p.sym63 → (classify p c).idx = 63 ∧ isMember p c = true) ∧
    indexOf p c = (if (classify p c).nf = false then (classify p c).idx.setWidth 7 else 0x40) ∧
    (isPad p c = true ↔ c = p.pad) ∧ (isMember p c = true ↔ ∃ i, symbolAt p i = c)

/-- R102: the five laws of the Alphabet Table. -/
def Obligations.AlphabetLaws : Prop :=
  ∀ p : Params, p.SymbolsOk →
    (∀ i, indexOf p (symbolAt p i) = i.setWidth 7) ∧
    (∀ c, indexOf p c ≠ notFound → symbolAt p ((indexOf p c).setWidth 6) = c) ∧
    (indexOf p p.pad = notFound ∧ isPad p p.pad = true) ∧
    (allCodes.countP (fun c => !(classify p c).nf) = 64 ∧
      allCodes.countP (fun c => (classify p c).pad) = 1 ∧
      allCodes.countP (fun c => (classify p c).nf && !(classify p c).pad) = 191) ∧
    (classify p 0x41 = ⟨0, false, false⟩ ∧ classify p 0x61 = ⟨26, false, false⟩)

/-- R103: SYMAT completes with RES = zext(ROM[ARG[5:0]]) and changes nothing else but STATUS. -/
def Obligations.SymatCompletes : Prop :=
  encode .symat = 0x00000001 ∧
  ∀ s : State, exec .symat s = .next { s with
    res := (symbolAt s.params (s.arg.extractLsb' 0 6)).setWidth 32
    status := { busy := false, done := true, err := 0, wbusy := s.status.wbusy } }

/-- R104: CLASSIFY completes with RES = zext(pad, nf, idx) of ARG[7:0], and changes nothing else but
STATUS. -/
def Obligations.ClassifyCompletes : Prop :=
  encode .classify = 0x00000002 ∧
  ∀ (s : State) (c : Byte), s.params.SymbolsOk → c = s.arg.extractLsb' 0 8 →
    ∃ r : Word, exec .classify s = .next { s with
        res := r
        status := { busy := false, done := true, err := 0, wbusy := s.status.wbusy } } ∧
      r.extractLsb' 0 6 = (classify s.params c).idx ∧ r.getLsbD 6 = (classify s.params c).nf ∧
      r.getLsbD 7 = (classify s.params c).pad ∧ r.extractLsb' 8 24 = 0 ∧
      (c = s.params.pad → r = 0x000000C0) ∧
      (c ≠ s.params.pad → isMember s.params c = false → r = 0x00000040) ∧
      (∀ i, symbolAt s.params i = c → r = i.setWidth 32) ∧
      r.extractLsb' 0 7 = indexOf s.params c ∧ (r.getLsbD 6 = false ↔ isMember s.params c = true)

/-! ## The Validator -/

/-- 41_validator.md rule R121: the trailing padding run is the longest suffix that is all PAD. -/
def Obligations.TrailingRunIsLongest : Prop :=
  ∀ (p : Params) (t : List Byte) (k : Nat),
    k ≤ trailingPads p t ↔
      k ≤ t.length ∧ ∀ i (h : i < t.length), t.length - k ≤ i → isPad p t[i] = true

/-- R122 and R123: the first of INVALID_LENGTH, INVALID_SYMBOL, MISPLACED_PADDING that applies; a text of
members and PADs only is never INVALID_SYMBOL. -/
def Obligations.ValidatorPriority : Prop :=
  ∀ (p : Params) (t : List Byte),
    (t.length % 4 ≠ 0 → validate p t = .invalidLength) ∧
    (t.length % 4 = 0 → (∃ c ∈ t, Outsider p c) → validate p t = .invalidSymbol) ∧
    (t.length % 4 = 0 → (∀ c ∈ t, ¬Outsider p c) → ¬ValidText p t → validate p t = .misplacedPadding)

/-- R125: the exact language the validator accepts. -/
def Obligations.ValidatorLanguage : Prop :=
  ∀ (p : Params) (t : List Byte), validate p t = .ok ↔ ValidText p t

/-- R126: a non-empty text of whole groups is valid iff DECGRP succeeds on every group, FINAL on the
last one only. -/
def Obligations.ValidIffGroupsPass : Prop :=
  ∀ (s : State) (t : List Byte), t.length % 4 = 0 → 0 < t.length →
    (validate s.params t = .ok ↔
      ∀ c ∈ decodeCalls t, succeeded (exec (.decgrp c.1) { s with arg := c.2 }) = true)

/-- R124: VALIDATE completes, with ERR_CAPACITY for a frame longer than CAP and else with the code of the
validator's kind, 0 to 3 (R181), and changes nothing but STATUS. -/
def Obligations.ValidateCompletes : Prop :=
  encode .validate = 0x00000003 ∧
  ∀ s : State,
    (s.params.cap < s.ilen.toNat → exec .validate s = .next { s with
      status := { busy := false, done := true, err := 4, wbusy := s.status.wbusy } }) ∧
    ∀ x, FrameIs s x → x.length ≤ s.params.cap → ∃ e : BitVec 4, exec .validate s = .next { s with
        status := { busy := false, done := true, err := e, wbusy := s.status.wbusy } } ∧
      (validate s.params x = .ok → e = 0) ∧ (validate s.params x = .invalidLength → e = 1) ∧
      (validate s.params x = .invalidSymbol → e = 2) ∧ (validate s.params x = .misplacedPadding → e = 3) ∧
      e ≤ 3

/-- R127: the validator accepts everything the encoder produces. -/
def Obligations.EncoderOutputIsValid : Prop :=
  ∀ p : Params, p.SymbolsOk → ∀ x, validate p (encodeBytes p x) = .ok

/-! ## The Encoder -/

/-- R144 with the packer of R140 to R142, its masks and shifts said as division and remainder: ENCGRP
completes with the symbols of the N bytes in the lanes of RES, and changes nothing else but STATUS; the
word with N = 0 is no command. -/
def Obligations.EncgrpCompletes : Prop :=
  ∀ (s : State) (n : BitVec 2) (b0 b1 b2 : Nat) (sym : Nat → Byte),
    b0 = s.arg.toNat % 256 → b1 = s.arg.toNat / 256 % 256 → b2 = s.arg.toNat / 65536 % 256 →
    (∀ k, sym k = symbolAt s.params (BitVec.ofNat 6 k)) →
    (n ≠ 0 → (encode (.encgrp n)).toNat = 4 + 65536 * n.toNat ∧
      ∃ r : Word, exec (.encgrp n) s = .next { s with
          res := r
          status := { busy := false, done := true, err := 0, wbusy := s.status.wbusy } } ∧
        (n = 3 → lanes r =
          [sym (b0 / 4), sym (b0 % 4 * 16 + b1 / 16), sym (b1 % 16 * 4 + b2 / 64), sym (b2 % 64)]) ∧
        (n = 2 → lanes r = [sym (b0 / 4), sym (b0 % 4 * 16 + b1 / 16), sym (b1 % 16 * 4), s.params.pad]) ∧
        (n = 1 → lanes r = [sym (b0 / 4), sym (b0 % 4 * 16), s.params.pad, s.params.pad])) ∧
    ∃ e, decode 0x00000004 = .error e

/-- R143: the encoding of a sequence is the encodings of its groups, in order; only the last can be
short. -/
def Obligations.EncodeConcatenatesGroups : Prop :=
  ∀ p : Params, encodeBytes p [] = [] ∧
    (∀ b0, encodeBytes p [b0] = encGroup1 p b0) ∧
    (∀ b0 b1, encodeBytes p [b0, b1] = encGroup2 p b0 b1) ∧
    (∀ b0 b1 b2, encodeBytes p [b0, b1, b2] = encGroup3 p b0 b1 b2) ∧
    ∀ x y, x.length % 3 = 0 → encodeBytes p (x ++ y) = encodeBytes p x ++ encodeBytes p y

/-- R146: the length law, the padding law, and no PAD anywhere else. -/
def Obligations.LengthAndPaddingLaws : Prop :=
  ∀ p : Params, p.SymbolsOk → ∀ x : List Byte,
    (encodeBytes p x).length = 4 * ((x.length + 2) / 3) ∧
    ∃ u, encodeBytes p x = u ++ List.replicate ((3 - x.length % 3) % 3) p.pad ∧ p.pad ∉ u

/-- R147: every symbol of an encoding that is not PAD is a code of the alphabet. -/
def Obligations.EncodingStaysInAlphabet : Prop :=
  ∀ (p : Params) (x : List Byte), ∀ c ∈ encodeBytes p x, c = p.pad ∨ ∃ i, symbolAt p i = c

/-- R148: the ENCGRP calls on a frame's groups compose to the frame's encoding. -/
def Obligations.EncgrpCallsCompose : Prop :=
  ∀ (s : State) (x : List Byte),
    ((encodeCalls x).flatMap fun c => resLanes (exec (.encgrp c.1) { s with arg := c.2 })) =
      encodeBytes s.params x

/-- R145: ENCODE completes. A frame that does not fit, or whose encoding does not, gives ERR_CAPACITY
and OLEN = 0 and nothing else; any other is encoded into OBUF[0..m-1] with OLEN = m = 4 * ceil(n/3),
and every other byte and register stays. -/
def Obligations.EncodeCompletes : Prop :=
  encode .encode = 0x00000005 ∧
  ∀ s : State, s.params.PlacesOk →
    (s.params.cap < s.ilen.toNat ∨ s.params.cap < 4 * ((s.ilen.toNat + 2) / 3) →
      exec .encode s = .next { s with
        olen := 0
        status := { busy := false, done := true, err := 4, wbusy := s.status.wbusy } }) ∧
    ∀ x, FrameIs s x → x.length ≤ s.params.cap → 4 * ((x.length + 2) / 3) ≤ s.params.cap →
      ∃ t, exec .encode s = .next t ∧ t.olen.toNat = 4 * ((x.length + 2) / 3) ∧
        (encodeBytes s.params x).length = t.olen.toNat ∧
        (∀ j (h : j < (encodeBytes s.params x).length), t.obuf j = (encodeBytes s.params x)[j]) ∧
        (∀ a, a < obufBase ∨ obufBase + t.olen.toNat ≤ a → t.readByte a = s.readByte a) ∧
        CompletedWith s t 0 ∧ SameContext s t ∧
        t.cmd = s.cmd ∧ t.ilen = s.ilen ∧ t.arg = s.arg ∧ t.res = s.res

/-! ## The Decoder -/

/-- R165: DECGRP completes, with its checks in their order and, on success, the bytes of R160 (its
shifts said as products and quotients) and their count in RES; nothing else but STATUS changes. -/
def Obligations.DecgrpCompletes : Prop :=
  encode (.decgrp false) = 0x00000006 ∧ encode (.decgrp true) = 0x00000106 ∧
  ∀ (s : State) (final : Bool) (g : List Byte) (k : Nat) (v : Nat → Nat),
    g = [s.arg.extractLsb' 0 8, s.arg.extractLsb' 8 8, s.arg.extractLsb' 16 8, s.arg.extractLsb' 24 8] →
    k = trailingPads s.params g →
    (∀ j, v j = (indexOf s.params (g.getD j 0)).toNat) →
    ∃ (r : Word) (e : BitVec 4), exec (.decgrp final) s = .next { s with
        res := r
        status := { busy := false, done := true, err := e, wbusy := s.status.wbusy } } ∧
      ((∃ c ∈ g, Outsider s.params c) → e = 2 ∧ r = 0) ∧
      ((∀ c ∈ g, ¬Outsider s.params c) →
        (2 < k → e = 3 ∧ r = 0) ∧
        (k ≤ 2 → (∃ c ∈ g.take (4 - k), isPad s.params c = true) → e = 3 ∧ r = 0) ∧
        (0 < k → final = false → e = 3 ∧ r = 0) ∧
        (k ≤ 2 → (∀ c ∈ g.take (4 - k), isPad s.params c = false) → (k = 0 ∨ final = true) →
          e = 0 ∧ r.toNat = (3 - k) * 16777216 +
            (if k = 0 then v 2 % 4 * 64 + v 3 else 0) * 65536 +
            (if k ≤ 1 then v 1 % 16 * 16 + v 2 / 4 else 0) * 256 + (v 0 * 4 + v 1 / 16)))

/-- R82, R125 and R165: the groups DECGRP accepts. Four members always; with FINAL = 1 also the padded
final groups. -/
def Obligations.DecgrpAcceptsExactly : Prop :=
  ∀ (s : State) (final : Bool),
    succeeded (exec (.decgrp final) s) = true ↔
      ((∀ c ∈ lanes s.arg, isMember s.params c = true) ∨
        (final = true ∧ FinalGroup s.params (lanes s.arg)))

/-- R164: the length of a valid text's decoding. -/
def Obligations.DecodedLength : Prop :=
  ∀ (p : Params) (t y : List Byte), decodeText p t = .ok y →
    y.length = 3 * (t.length / 4) - trailingPads p t ∧ y.length ≤ 3 * t.length / 4

/-- R162: a padded final group is accepted whatever its discarded bits are, and they reach no byte. -/
def Obligations.NonCanonicalAccepted : Prop :=
  ∀ (p : Params) (i j k : Index), p.SymbolsOk →
    decodeText p [symbolAt p i, symbolAt p j, p.pad, p.pad] =
      .ok [BitVec.ofNat 8 (i.toNat * 4 + j.toNat / 16)] ∧
    decodeText p [symbolAt p i, symbolAt p j, symbolAt p k, p.pad] =
      .ok [BitVec.ofNat 8 (i.toNat * 4 + j.toNat / 16), BitVec.ofNat 8 (j.toNat % 16 * 16 + k.toNat / 4)]

/-- R166: DECODE completes. ERR_CAPACITY for a text longer than CAP, else the number of the validator's
error, 1 to 3 (R181), each with OLEN = 0 and nothing else; a valid text's bytes go to OBUF[0..OLEN-1], and every other byte and
register stays. -/
def Obligations.DecodeCompletes : Prop :=
  encode .decode = 0x00000007 ∧
  ∀ s : State, s.params.PlacesOk →
    (s.params.cap < s.ilen.toNat → exec .decode s = .next { s with
      olen := 0
      status := { busy := false, done := true, err := 4, wbusy := s.status.wbusy } }) ∧
    ∀ x, FrameIs s x → x.length ≤ s.params.cap →
      (validate s.params x ≠ .ok → ∃ e : BitVec 4, exec .decode s = .next { s with
          olen := 0
          status := { busy := false, done := true, err := e, wbusy := s.status.wbusy } } ∧
        (validate s.params x = .invalidLength → e = 1) ∧ (validate s.params x = .invalidSymbol → e = 2) ∧
        (validate s.params x = .misplacedPadding → e = 3) ∧ 1 ≤ e ∧ e ≤ 3) ∧
      (validate s.params x = .ok → ∃ y t, decodeText s.params x = .ok y ∧ exec .decode s = .next t ∧
        t.olen.toNat = y.length ∧ (∀ j (h : j < y.length), t.obuf j = y[j]) ∧
        (∀ a, a < obufBase ∨ obufBase + t.olen.toNat ≤ a → t.readByte a = s.readByte a) ∧
        CompletedWith s t 0 ∧ SameContext s t ∧
        t.cmd = s.cmd ∧ t.ilen = s.ilen ∧ t.arg = s.arg ∧ t.res = s.res)

/-- R167: the DECGRP calls on a valid text's groups compose to the text's decoding. -/
def Obligations.DecgrpCallsCompose : Prop :=
  ∀ (s : State) (t y : List Byte), decodeText s.params t = .ok y →
    ((decodeCalls t).flatMap fun c => resBytes (exec (.decgrp c.1) { s with arg := c.2 })) = y

/-- R163, on sequences: decoding the encoding of any byte sequence gives it back. -/
def Obligations.RoundTripSequences : Prop :=
  ∀ p : Params, p.SymbolsOk → ∀ x, decodeText p (encodeBytes p x) = .ok x

/-- R163, in hardware: ENCODE, OBUF[0..OLEN-1] copied to IBUF, ILEN <- OLEN, DECODE: OBUF holds the
original frame. `u` is any state that holds the copy. -/
def Obligations.RoundTripThroughBuffers : Prop :=
  ∀ (s t u : State) (x : List Byte), s.params.Admissible → FrameIs s x →
    4 * ((x.length + 2) / 3) ≤ s.params.cap → exec .encode s = .next t →
    u.params = s.params → u.ilen = t.olen → (∀ i, i < t.olen.toNat → u.ibuf i = t.obuf i) →
    ∃ v, exec .decode u = .next v ∧ v.status.err = 0 ∧ v.olen = s.ilen ∧
      ∀ i (h : i < x.length), v.obuf i = x[i]

/-! ## Completion, errors, frames -/

/-- 60_exceptions.md rule R182: the codes each command can complete with, and ERR_BADCMD for any
illegal word. -/
def Obligations.PossibleCodes : Prop :=
  (∀ (i : Instr) (s : State), i.wellFormed = true →
    ∃ t, exec i s = .next t ∧ t.status.err ∈ possibleCodes i) ∧
  ∀ (s : State) (rest : List Turn), s.turns = .block :: rest → s.status.busy = true →
    legalWord s.cmd = false → ∃ t, step s = .next t ∧ t.status.err = 5

/-- R184: every command completes with one of the result codes: BUSY 0, DONE 1, ERR the code, WBUSY as
before. -/
def Obligations.EveryCommandCompletes : Prop :=
  ∀ (i : Instr) (s : State), ∃ (t : State) (c : ErrCode), exec i s = .next t ∧ CompletedWith s t c.bits

/-- R185: what a command that errs writes, BADCMD included. -/
def Obligations.ErrorsWriteNothingElse : Prop :=
  (∀ (i : Instr) (s t : State), i.wellFormed = true → exec i s = .next t → t.status.err ≠ 0 →
    ((i = .encode ∨ i = .decode) → t = { s with olen := 0, status := t.status }) ∧
    (i = .validate → t = { s with status := t.status }) ∧
    (∀ f, i = .decgrp f → t = { s with res := 0, status := t.status })) ∧
  ∀ s : State, s.status.busy = true → legalWord s.cmd = false → blockStep s = .next { s with
    status := { busy := false, done := true, err := 5, wbusy := s.status.wbusy } }

/-- The frame of the unit commands SYMAT, CLASSIFY, ENCGRP and DECGRP (10_state.md rules R29, R30, R32,
R33, R34, R35): RES and STATUS alone change, WBUSY among STATUS's bits stays, and no byte of either
buffer changes. -/
def Obligations.UnitCommandFrame : Prop :=
  ∀ (i : Instr) (s t : State), isUnit i = true → exec i s = .next t →
    SameContext s t ∧ t.cmd = s.cmd ∧ t.ilen = s.ilen ∧ t.olen = s.olen ∧ t.arg = s.arg ∧
    t.status.wbusy = s.status.wbusy ∧ SameBytes s t

/-- The frame of the frame commands VALIDATE, ENCODE and DECODE (R30, R32, R33, R34, R35; 20_memory.md
rule R61): RES and ARG stay; VALIDATE and every command that errs change no byte; ENCODE and DECODE change
no byte outside OBUF[0..OLEN-1], so none of IBUF. -/
def Obligations.FrameCommandFrame : Prop :=
  ∀ (i : Instr) (s t : State), isUnit i = false → exec i s = .next t →
    SameContext s t ∧ t.cmd = s.cmd ∧ t.ilen = s.ilen ∧ t.arg = s.arg ∧ t.res = s.res ∧
    t.status.wbusy = s.status.wbusy ∧ (i = .validate → t.olen = s.olen) ∧
    ((i = .validate ∨ t.status.err ≠ 0) → SameBytes s t) ∧
    (s.params.PlacesOk → ∀ a, a < obufBase ∨ obufBase + t.olen.toNat ≤ a → t.readByte a = s.readByte a)

/-- 00_scope.md rule R14 and 10_state.md rule R38: a command's result is a function of the parameters,
ILEN, ARG and the frame in IBUF (a frame longer than CAP is not read). Two states that agree on those give the same code, and the same RES
(unit commands) or the same OLEN and output bytes (ENCODE and DECODE). -/
def Obligations.ResultsDependOnInputsOnly : Prop :=
  ∀ (i : Instr) (s u t v : State), i.wellFormed = true → u.params = s.params → u.ilen = s.ilen →
    u.arg = s.arg → (s.ilen.toNat ≤ s.params.cap → ∀ k, k < s.ilen.toNat → u.ibuf k = s.ibuf k) →
    exec i s = .next t → exec i u = .next v →
    v.status.err = t.status.err ∧ (isUnit i = true → v.res = t.res) ∧
    ((i = .encode ∨ i = .decode) → v.olen = t.olen ∧ ∀ j, j < t.olen.toNat → v.obuf j = t.obuf j)

/-! ## The step

The list of moves `turns` (assumption log 1) and the response `resp` (assumption log 4) are the model's own:
where a statement below says what they become, that clause is the model's choice, not a rule's. -/

/-- A BLOCK step runs the pending command (70_reset_and_hazards.md rule R204): with BUSY = 1 and a word
that decodes to `i` in CMD, BLOCK's turn is `exec i` with the turn taken from the list; with no move left
it is BLOCK's turn too (the model's `turns`, assumption log 1). -/
def Obligations.StepRunsPendingCommand : Prop :=
  ∀ (s : State) (i : Instr), s.status.busy = true → decode s.cmd = .ok i →
    (∀ rest, s.turns = .block :: rest → step s = exec i { s with turns := rest }) ∧
    (s.turns = [] → step s = exec i s)

/-- R84, R92 and R185: a pending word other than the ten completes with ERR_BADCMD and changes nothing
but STATUS, on BLOCK's turn and, as that is BLOCK's turn too, with no move left (the model's `turns`, assumption
log 1). -/
def Obligations.IllegalWordIsBadCommand : Prop :=
  ∀ s : State, s.status.busy = true →
    s.cmd ∉ ([0x00000001, 0x00000002, 0x00000003, 0x00010004, 0x00020004,
      0x00030004, 0x00000005, 0x00000006, 0x00000106, 0x00000007] : List Word) →
    (∀ rest, s.turns = .block :: rest → step s = .next { s with
      turns := rest
      status := { busy := false, done := true, err := 5, wbusy := s.status.wbusy } }) ∧
    (s.turns = [] → step s = .next { s with
      status := { busy := false, done := true, err := 5, wbusy := s.status.wbusy } })

/-- 10_state.md rule R20 and 60_exceptions.md rule R193: with BUSY = 0 the block has no step, so
BLOCK's turn changes nothing (the model's `turns`, assumption logs 1 and 6). -/
def Obligations.IdleBlockDoesNothing : Prop :=
  ∀ s : State, s.status.busy = false →
    (∀ rest, s.turns = .block :: rest → step s = .next { s with turns := rest }) ∧
    (s.turns = [] → step s = .next s)

/-- R27 and R204: a 32-bit write to CMD while BUSY = 0 is accepted. The response is the model's
(assumption log 4). -/
def Obligations.CommandWriteIsAccepted : Prop :=
  ∀ (s : State) (w : Word) (rest : List Turn), s.status.busy = false →
    s.turns = .access (.write .w32 0x00000 w) :: rest →
    step s = .next { s with
      cmd := w
      status := { busy := true, done := false, err := 0, wbusy := s.status.wbusy }
      turns := rest
      resp := some .written }

/-- R205: writes while busy. -/
def Obligations.BusyWritesAreIgnored : Prop :=
  ∀ (s : State) (rest : List Turn), s.status.busy = true → s.params.PlacesOk →
    (∀ off v, (off = 0x00000 ∨ off = 0x00008 ∨ off = 0x00014) →
      step { s with turns := .access (.write .w32 off v) :: rest } = .next { s with
        turns := rest, resp := some .written, status := { s.status with wbusy := true } }) ∧
    (∀ w off v, BufferAccess s.params.cap w off →
      step { s with turns := .access (.write w off v) :: rest } = .next { s with
        turns := rest, resp := some .written, status := { s.status with wbusy := true } }) ∧
    (∀ v, step { s with turns := .access (.write .w32 0x00004 v) :: rest } = .next { s with
        turns := rest, resp := some .written
        status := { s.status with
          done := s.status.done && !v.getLsbD 1, wbusy := s.status.wbusy && !v.getLsbD 8 } }) ∧
    (∀ off v, (off = 0x0000C ∨ off = 0x00010 ∨ off = 0x00018) →
      step { s with turns := .access (.write .w32 off v) :: rest } = .next { s with
        turns := rest, resp := some .written })

/-- R206: reads while busy. OLEN, RES and OBUF return some value, about which nothing is said, and
change nothing the host can see; every other place returns its exact value. -/
def Obligations.BusyReads : Prop :=
  ∀ (s : State) (rest : List Turn), s.status.busy = true → s.params.PlacesOk →
    (∀ r : Reg, r ≠ .olen → r ≠ .res →
      step { s with turns := .access (.read .w32 (BitVec.ofNat 18 r.offset)) :: rest } =
        .next { s with turns := rest, resp := some (.data (s.readReg r)) }) ∧
    (∀ w off, BufferAccess s.params.cap w off → off.toNat < 0x20000 →
      step { s with turns := .access (.read w off) :: rest } =
        .next { s with turns := rest, resp := some (.data (s.readLE w off.toNat)) }) ∧
    (∀ w off, ((w = .w32 ∧ (off = 0x0000C ∨ off = 0x00018)) ∨
        (BufferAccess s.params.cap w off ∧ 0x20000 ≤ off.toNat)) →
      ∃ v d, step { s with turns := .access (.read w off) :: rest } =
        .next { s with turns := rest, resp := some (.data v), draws := d })

/-- 10_state.md rules R27 to R33 and R60, with BUSY = 0: a 32-bit read of a register's offset (20_memory.md
rule R51) returns the register; a write to ILEN or ARG stores all 32 bits; writes to OLEN, CAPR and RES are
ignored, set nothing and are not errors. -/
def Obligations.IdleRegisterAccesses : Prop :=
  ∀ (s : State) (rest : List Turn) (v : Word), s.status.busy = false →
    (∀ off, (off, v) ∈ ([(0x00000, s.cmd), (0x00004, s.status.word), (0x00008, s.ilen), (0x0000C, s.olen),
        (0x00010, BitVec.ofNat 32 s.params.cap), (0x00014, s.arg), (0x00018, s.res)] : List (Offset × Word)) →
      step { s with turns := .access (.read .w32 off) :: rest } =
        .next { s with turns := rest, resp := some (.data v) }) ∧
    step { s with turns := .access (.write .w32 0x00008 v) :: rest } =
      .next { s with turns := rest, resp := some .written, ilen := v } ∧
    step { s with turns := .access (.write .w32 0x00014 v) :: rest } =
      .next { s with turns := rest, resp := some .written, arg := v } ∧
    ∀ off, (off = 0x0000C ∨ off = 0x00010 ∨ off = 0x00018) →
      step { s with turns := .access (.write .w32 off v) :: rest } =
        .next { s with turns := rest, resp := some .written }

/-- R28: STATUS as a word. BUSY bit 0, DONE bit 1, ERR bits 7:4, WBUSY bit 8; bits 3:2 and 31:9 read 0. -/
def Obligations.StatusWordLayout : Prop :=
  ∀ s : Status, s.word.getLsbD 0 = s.busy ∧ s.word.getLsbD 1 = s.done ∧ s.word.extractLsb' 2 2 = 0 ∧
    s.word.extractLsb' 4 4 = s.err ∧ s.word.getLsbD 8 = s.wbusy ∧ s.word.extractLsb' 9 23 = 0

/-- R28: a write to STATUS clears DONE and WBUSY where the value has bits 1 and 8, and changes nothing
else, whether or not the block is busy. -/
def Obligations.StatusWriteClears : Prop :=
  ∀ (s : State) (rest : List Turn) (v : Word),
    ∃ st : Status, step { s with turns := .access (.write .w32 0x00004 v) :: rest } =
        .next { s with turns := rest, resp := some .written, status := st } ∧
      st.word = s.status.word &&& ~~~(v &&& 0x00000102)

/-- 20_memory.md rules R54 to R58: exactly the accesses the map allows are performed; every other one
gets BusError and changes no state, DONE, WBUSY, ERR and a pending command included. That this holds while
BUSY = 1 too, so that a refused write then sets no WBUSY, is the model's choice (assumption log 14, DEDUCED). -/
def Obligations.BusErrorExactly : Prop :=
  ∀ (s : State) (a : Access) (rest : List Turn), s.params.PlacesOk →
    (¬RegisterAccess a.place.1 a.place.2 → ¬BufferAccess s.params.cap a.place.1 a.place.2 →
      step { s with turns := .access a :: rest } =
        .next { s with turns := rest, resp := some .busError }) ∧
    ((RegisterAccess a.place.1 a.place.2 ∨ BufferAccess s.params.cap a.place.1 a.place.2) →
      ∃ t, step { s with turns := .access a :: rest } = .next t ∧
        t.resp ≠ none ∧ t.resp ≠ some .busError)

/-- R60: a read changes no register, no flag and no byte; with BUSY = 0 a second read of the same place
gives the same response. -/
def Obligations.ReadsHaveNoSideEffect : Prop :=
  ∀ (s t u : State) (w : Width) (off : Offset) (rest : List Turn),
    step { s with turns := .access (.read w off) :: rest } = .next t →
    step { t with turns := .access (.read w off) :: rest } = .next u →
    t = { s with turns := rest, resp := t.resp, draws := t.draws } ∧
    (s.status.busy = false → u.resp = t.resp)

/-- R53: little-endian buffer accesses with BUSY = 0. A write stores byte k of its value at offset + k
and changes no other byte and no register; a read returns the bytes with the lowest offset lowest. That a narrow write takes
the low bits of the word the host gives, and that the remaining bytes of a narrow read are 0, is the model's
choice (assumption log 16, DEDUCED). -/
def Obligations.BufferAccessIsLittleEndian : Prop :=
  ∀ (s : State) (w : Width) (off : Offset) (rest : List Turn), s.status.busy = false →
    s.params.PlacesOk → BufferAccess s.params.cap w off →
    (∀ v, ∃ t, step { s with turns := .access (.write w off v) :: rest } = .next t ∧
      t = { s with turns := rest, resp := some .written, mem := t.mem } ∧
      (∀ k, k < w.bytes → t.readByte (off.toNat + k) = v.extractLsb' (8 * k) 8) ∧
      ∀ a, a < off.toNat ∨ off.toNat + w.bytes ≤ a → t.readByte a = s.readByte a) ∧
    ∃ v : Word, step { s with turns := .access (.read w off) :: rest } =
        .next { s with turns := rest, resp := some (.data v) } ∧
      (∀ k, k < w.bytes → v.extractLsb' (8 * k) 8 = s.readByte (off.toNat + k)) ∧
      ∀ k, w.bytes ≤ k → k < 4 → v.extractLsb' (8 * k) 8 = 0

/-- R50: the window stands at BASE, 2^18 bytes long and aligned: bus addresses and offsets name each
other, and no bus address outside it names an offset. -/
def Obligations.WindowStandsAtBase : Prop :=
  ∀ p : Params, p.PlacesOk →
    (∀ off, busAddress p off % 0x40000 = off.toNat ∧ windowOffset p (busAddress p off) = some off) ∧
    (∀ addr off, windowOffset p addr = some off → busAddress p off = addr) ∧
    ∀ addr, addr < p.base ∨ p.base + 0x40000 ≤ addr → windowOffset p addr = none

/-- R186 and R28: with BUSY = 0 and no reset, ERR stays until a command is accepted, and DONE until that
or a write of 1 to STATUS bit 1; WBUSY, once set, stays until a write of 1 to bit 8 or reset. -/
def Obligations.StatusPersists : Prop :=
  ∀ s t : State, step s = .next t → (∀ r, s.turns ≠ .reset :: r) →
    (s.status.busy = false → t.status.busy = false →
      t.status.err = s.status.err ∧
      (t.status.done = s.status.done ∨
        ∃ v r, s.turns = .access (.write .w32 0x00004 v) :: r ∧ v.getLsbD 1 = true)) ∧
    (s.status.wbusy = true → t.status.wbusy = true ∨
      ∃ v r, s.turns = .access (.write .w32 0x00004 v) :: r ∧ v.getLsbD 8 = true)

/-- R208 (and R184): an accepted command completes: after finitely many moves, at most one more than
those that still stand before it, BUSY is 0 and DONE is 1. That the list of moves is finite is the model's
fairness (assumption log 1). -/
def Obligations.AcceptedCommandCompletes : Prop :=
  ∀ s : State, s.status.busy = true → ordinaryTurns s.turns = true →
    ∃ n t, n ≤ s.turns.length + 1 ∧ Sys2Proof.core.run n s = .next t ∧
      t.status.busy = false ∧ t.status.done = true

/-- 60_exceptions.md rule R180: nothing stops the block. A step ends in a next state, but for a host
access made during reset, which rule R211 leaves out and the model refuses (assumption log 8). -/
def Obligations.StepsNeverStop : Prop :=
  ∀ s : State, ((∀ a r, s.turns ≠ .accessInReset a :: r) → ∃ t, step s = .next t) ∧
    ∀ a r, s.turns = .accessInReset a :: r → step s = .refused .accessInReset

/-- 10_state.md rule R24 and R31: no step changes ROM, PAD or CAPR. -/
def Obligations.ConstantsNeverChange : Prop :=
  ∀ s t : State, step s = .next t →
    (∀ i, symbolAt t.params i = symbolAt s.params i) ∧ t.params.pad = s.params.pad ∧ t.capr = s.capr ∧
    t.params = s.params

/-! ## Reset and the invariant -/

/-- 70_reset_and_hazards.md rules R200 and R201: reset sets every register, leaves no command pending,
keeps the constants, and makes every buffer byte a fresh free draw. The moves to come, the count of busy
draws and the empty response are the model's (assumption logs 1, 3, 4). -/
def Obligations.ResetEvent : Prop :=
  ∀ (s : State) (rest : List Turn), s.turns = .reset :: rest →
    ∃ t, step s = .next t ∧ t.params = s.params ∧ t.cmd = 0 ∧
      t.status = { busy := false, done := false, err := 0, wbusy := false } ∧ t.ilen = 0 ∧ t.olen = 0 ∧
      t.arg = 0 ∧ t.res = 0 ∧ t.epoch = s.epoch + 1 ∧
      (∀ a, t.readByte a = Config.freeByte t.epoch a) ∧
      t.turns = rest ∧ t.draws = s.draws ∧ t.resp = none

/-- 10_state.md rule R39: the state after reset. -/
def Obligations.ResetValues : Prop :=
  State.reset.cmd = 0x00000000 ∧ State.reset.status.word = 0x00000000 ∧ State.reset.ilen = 0x00000000 ∧
  State.reset.olen = 0x00000000 ∧ State.reset.capr = BitVec.ofNat 32 State.reset.params.cap ∧
  State.reset.arg = 0x00000000 ∧ State.reset.res = 0x00000000 ∧ State.reset.status.busy = false ∧
  State.reset.mem = [] ∧ State.reset.params = Config.theParams.val

/-- The invariant holds at reset (R7, R8, R28, R39). -/
def Obligations.InvariantAtReset : Prop := State.reset.Inv

/-- Every step keeps the invariant: admissible parameters, canonical memory inside the buffers, a legal
ERR, BUSY excluding DONE and ERR (10_state.md rule R28), OLEN within CAP. -/
def Obligations.InvariantKept : Prop :=
  ∀ s t : State, s.Inv → step s = .next t → t.Inv

/-! ## Host programs -/

/-- 30_encoding.md rule R91: what each line of a host program does, and the values of its expressions. A write
line is one bus access with the value and the place it names; a read line is one bus access, after which the
variable or array element has the value the block returned, or keeps its own where the block refused the read
(20_memory.md rule R58). A line whose place lies beyond the window is refused by name (assumption log 13). An
assignment, a jump and a label make no access. A variable or element has the value of its latest assignment. These
clauses are the model's choice: that a jump goes to the first of several equal labels (LabelStands), and that a
variable and an array of one name are two things (assumption log 13, DESIGN CHOICE); that a sum, a product and a
left shift keep 32 bits (log 19, DEDUCED); that the sum in `ceil(e / 3)` and the sum that gives a place do not wrap,
that a comparison is 1 or 0, that `/` is an operator, and that a condition holds iff its value is not 0 (log 19,
DESIGN CHOICE). -/
def Obligations.HostLinesAreAccesses : Prop :=
  (∀ (h : HostSys) (r : List (Option Turn)) (val : HostExpr → Word), h.sched = none :: r →
    (∀ e, val e = e.eval h.block.params h.vars) →
    (∀ w p off v, h.prog[h.line]? = some (.wr w p v) → p.offset h.block.params h.vars = some off →
      ∃ b, step { h.block with turns := .access (.write w off (val v)) :: h.block.turns } = .next b ∧
        h.step = .next { h with block := b, line := h.line + 1, sched := r }) ∧
    (∀ w p off d, h.prog[h.line]? = some (.rd w p d) → p.offset h.block.params h.vars = some off →
      ∃ b, step { h.block with turns := .access (.read w off) :: h.block.turns } = .next b ∧
        (∀ v, b.resp = some (.data v) →
          (∀ x, d = .var x → h.step =
            .next { h with block := b, line := h.line + 1, sched := r, vars := (x, none, v) :: h.vars }) ∧
          (∀ x k, d = .elem x k → h.step =
            .next { h with block := b, line := h.line + 1, sched := r, vars := (x, some (val k), v) :: h.vars })) ∧
        (b.resp = some .busError → h.step = .next { h with block := b, line := h.line + 1, sched := r })) ∧
    (∀ w p, p.offset h.block.params h.vars = none →
      ((∃ v, h.prog[h.line]? = some (.wr w p v)) ∨ (∃ d, h.prog[h.line]? = some (.rd w p d))) →
      h.step = .refused .outsideWindow) ∧
    (∀ x e, h.prog[h.line]? = some (.assign (.var x) e) →
      h.step = .next { h with line := h.line + 1, sched := r, vars := (x, none, val e) :: h.vars }) ∧
    (∀ x k e, h.prog[h.line]? = some (.assign (.elem x k) e) →
      h.step = .next { h with line := h.line + 1, sched := r, vars := (x, some (val k), val e) :: h.vars }) ∧
    (∀ c l m, h.prog[h.line]? = some (.ifGoto c l) → LabelStands h.prog l m →
      h.step = .next { h with line := if val c = 0 then h.line + 1 else m, sched := r }) ∧
    (∀ l m, h.prog[h.line]? = some (.goto l) → LabelStands h.prog l m →
      h.step = .next { h with line := m, sched := r }) ∧
    (∀ l, h.prog[h.line]? = some (.label l) → h.step = .next { h with line := h.line + 1, sched := r })) ∧
  ∀ (p : Params) (vars : List (Nat × Option Word × Word)) (val : HostExpr → Nat) (a b : HostExpr),
    (∀ e, val e = (e.eval p vars).toNat) →
    val (.op .and a b) = val a &&& val b ∧ val (.op .or a b) = val a ||| val b ∧
    (val b < 32 → val (.op .shl a b) = val a * 2 ^ val b % 2 ^ 32 ∧ val (.op .shr a b) = val a / 2 ^ val b) ∧
    val (.op .add a b) = (val a + val b) % 2 ^ 32 ∧ val (.op .mul a b) = val a * val b % 2 ^ 32 ∧
    (val b ≠ 0 → val (.op .div a b) = val a / val b ∧ val (.op .mod a b) = val a % val b) ∧
    val (.op .lt a b) = (if val a < val b then 1 else 0) ∧
    val (.op .eq a b) = (if val a = val b then 1 else 0) ∧
    val (.op .ne a b) = (if val a = val b then 0 else 1) ∧ val (.ceilThird a) = (val a + 2) / 3 ∧
    (∀ hi lo, lo ≤ hi → hi < 32 → val (.bits a hi lo) = val a / 2 ^ lo % 2 ^ (hi + 1 - lo)) ∧
    (∀ v : Word, val (.const v) = v.toNat) ∧ val .pad = p.pad.toNat ∧ val .sym62 = p.sym62.toNat ∧
    val .sym63 = p.sym63.toNat ∧
    (∀ x k v rest, vars = (x, k, v) :: rest →
      (k = none → val (.var x) = v.toNat) ∧ (k = some (a.eval p vars) → val (.elem x a) = v.toNat) ∧
      (∀ y, (y ≠ x ∨ k ≠ none) → val (.var y) = ((HostExpr.var y).eval p rest).toNat) ∧
      ∀ y, (y ≠ x ∨ k ≠ some (a.eval p vars)) →
        val (.elem y a) = ((HostExpr.elem y (.const (a.eval p vars))).eval p rest).toNat)

/-- 30_encoding.md rule R91: what each pseudo-instruction does under the eager schedule, the block idle: `issue`
has its command accepted; `wait` reads STATUS once and goes on, and with BUSY = 1 and the host to move it goes
back to its label; `run` ends after the command's own effect, with STATUS read; `ack` clears DONE and `clrw`
WBUSY; `put` leaves its values in IBUF and `fill` its value in OBUF, and no other byte changes. That a byte of
`put` and `fill` is the low 8 bits of its 32-bit value is the model's choice (assumption log 16, DEDUCED), and that
a jump goes to the first of several equal labels is too (log 13, DESIGN CHOICE). The count of moves, the line, the
host's variables and the response are the model's form (logs 4 and 13). -/
def Obligations.PseudoInstructionsRun : Prop :=
  ∀ h : HostSys,
    (∀ i, i.wellFormed = true → RunsLines h (pseudoIssue i) →
      h.step = .next { h with line := h.line + 1, block := { h.block with
        cmd := encode i, resp := some .written
        status := { busy := true, done := false, err := 0, wbusy := h.block.status.wbusy } } }) ∧
    (∀ l t, RunsLines h (pseudoWait l t) →
      h.run 3 = .next { h with
        line := h.line + 3, vars := (t, none, h.block.status.word) :: h.vars
        block := { h.block with resp := some (.data h.block.status.word) } }) ∧
    (∀ l t r, h.sched = none :: none :: none :: r → h.block.status.busy = true →
      pseudoWait l t <+: h.prog.drop h.line → LabelStands h.prog l h.line →
      h.run 3 = .next { h with
        sched := r, vars := (t, none, h.block.status.word) :: h.vars
        block := { h.block with resp := some (.data h.block.status.word) } }) ∧
    (∀ i l t, i.wellFormed = true → RunsLines h (pseudoRun i l t) →
      ∃ u, exec i { h.block with
          cmd := encode i, resp := some .written
          status := { busy := true, done := false, err := 0, wbusy := h.block.status.wbusy } } = .next u ∧
        h.run 5 = .next { h with
          line := h.line + 4, vars := (t, none, u.status.word) :: h.vars
          block := { u with resp := some (.data u.status.word) } }) ∧
    (RunsLines h pseudoAck →
      h.step = .next { h with line := h.line + 1, block := { h.block with
        resp := some .written, status := { h.block.status with done := false } } }) ∧
    (RunsLines h pseudoClrw →
      h.step = .next { h with line := h.line + 1, block := { h.block with
        resp := some .written, status := { h.block.status with wbusy := false } } }) ∧
    (∀ xs, RunsLines h (pseudoPut xs) → h.block.params.PlacesOk → xs.length ≤ h.block.params.cap →
      ∃ b, h.run xs.length = .next { h with line := h.line + xs.length, block := b } ∧
        b = { h.block with mem := b.mem, resp := b.resp } ∧
        (∀ k (_ : k < xs.length), b.ibuf k = (xs[k].eval h.block.params h.vars).setWidth 8) ∧
        ∀ a, a < ibufBase ∨ ibufBase + xs.length ≤ a → b.readByte a = h.block.readByte a) ∧
    (∀ v k, RunsLines h (pseudoFill v k) → h.block.params.PlacesOk → k ≤ h.block.params.cap →
      ∃ b, h.run k = .next { h with line := h.line + k, block := b } ∧
        b = { h.block with mem := b.mem, resp := b.resp } ∧
        (∀ j, j < k → b.obuf j = (v.eval h.block.params h.vars).setWidth 8) ∧
        ∀ a, a < obufBase ∨ obufBase + k ≤ a → b.readByte a = h.block.readByte a)
end

