-- ==== Sys2Proof/Laws/Alphabet.lean ====
section
/-! SUPPORT. The inverse lookup: what `findIndex` and `classify` answer. -/

namespace Sys2Proof.Machine

theorem mem_allIndexes (i : Index) : i ∈ allIndexes := by
  simp only [allIndexes, List.mem_map, List.mem_range]
  exact ⟨i.toNat, i.isLt, by simp⟩

theorem findIndex_some {p : Params} {c : Byte} {i : Index} (h : findIndex p c = some i) :
    romEntry p i = c := by
  simpa using List.find?_some h

theorem findIndex_none {p : Params} {c : Byte} (h : findIndex p c = none) (i : Index) :
    romEntry p i ≠ c := by
  simpa using List.find?_eq_none.mp h i (mem_allIndexes i)

/-- The three arms of rule R101. -/
theorem classify_cases (p : Params) (c : Byte) :
    (∃ i, romEntry p i = c ∧ classify p c = ⟨i, false, false⟩) ∨
    ((∀ i, romEntry p i ≠ c) ∧ c = p.pad ∧ classify p c = ⟨0, true, true⟩) ∨
    ((∀ i, romEntry p i ≠ c) ∧ c ≠ p.pad ∧ classify p c = ⟨0, true, false⟩) := by
  unfold classify
  cases h : findIndex p c with
  | some i => exact .inl ⟨i, findIndex_some h, rfl⟩
  | none =>
    by_cases hp : c = p.pad
    · exact .inr (.inl ⟨findIndex_none h, hp, by simp [hp]⟩)
    · exact .inr (.inr ⟨findIndex_none h, hp, by simp [hp]⟩)

/-- A member is a code of the ROM. -/
theorem isMember_iff (p : Params) (c : Byte) : isMember p c = true ↔ ∃ i, romEntry p i = c := by
  unfold isMember
  rcases classify_cases p c with ⟨i, h, e⟩ | ⟨h, _, e⟩ | ⟨h, _, e⟩
  · simp [e]; exact ⟨i, h⟩
  · simp [e]; exact h
  · simp [e]; exact h

/-- PAD, where the ROM does not hold it (R7). -/
theorem isPad_iff (p : Params) (c : Byte) :
    isPad p c = true ↔ c = p.pad ∧ ∀ i, romEntry p i ≠ c := by
  unfold isPad
  rcases classify_cases p c with ⟨i, h, e⟩ | ⟨h, hp, e⟩ | ⟨h, hp, e⟩
  · simp [e]; exact fun _ => ⟨i, h⟩
  · simp [e]; exact ⟨hp, h⟩
  · simp [e, hp]

/-- No code is both a member and PAD. -/
theorem isPad_of_isMember {p : Params} {c : Byte} (h : isMember p c = true) : isPad p c = false := by
  obtain ⟨i, hi⟩ := (isMember_iff p c).mp h
  by_contra hc
  exact ((isPad_iff p c).mp (by simpa using hc)).2 i hi

end Sys2Proof.Machine
end

