-- ==== Sys2Proof/Laws/State.lean ====
section
/-! SUPPORT. What each named update does to each field of State, and each STATUS operation to each
field of STATUS. True by rfl: later proofs unfold no record update. -/

namespace Sys2Proof.Machine

@[simp] theorem setRes_params (s : State) (v : Word) : (s.setRes v).params = s.params := rfl
@[simp] theorem setRes_cmd (s : State) (v : Word) : (s.setRes v).cmd = s.cmd := rfl
@[simp] theorem setRes_status (s : State) (v : Word) : (s.setRes v).status = s.status := rfl
@[simp] theorem setRes_ilen (s : State) (v : Word) : (s.setRes v).ilen = s.ilen := rfl
@[simp] theorem setRes_olen (s : State) (v : Word) : (s.setRes v).olen = s.olen := rfl
@[simp] theorem setRes_arg (s : State) (v : Word) : (s.setRes v).arg = s.arg := rfl
@[simp] theorem setRes_res (s : State) (v : Word) : (s.setRes v).res = v := rfl
@[simp] theorem setRes_mem (s : State) (v : Word) : (s.setRes v).mem = s.mem := rfl
@[simp] theorem setRes_epoch (s : State) (v : Word) : (s.setRes v).epoch = s.epoch := rfl
@[simp] theorem setRes_draws (s : State) (v : Word) : (s.setRes v).draws = s.draws := rfl
@[simp] theorem setRes_turns (s : State) (v : Word) : (s.setRes v).turns = s.turns := rfl
@[simp] theorem setRes_resp (s : State) (v : Word) : (s.setRes v).resp = s.resp := rfl

@[simp] theorem setOlen_params (s : State) (v : Word) : (s.setOlen v).params = s.params := rfl
@[simp] theorem setOlen_cmd (s : State) (v : Word) : (s.setOlen v).cmd = s.cmd := rfl
@[simp] theorem setOlen_status (s : State) (v : Word) : (s.setOlen v).status = s.status := rfl
@[simp] theorem setOlen_ilen (s : State) (v : Word) : (s.setOlen v).ilen = s.ilen := rfl
@[simp] theorem setOlen_olen (s : State) (v : Word) : (s.setOlen v).olen = v := rfl
@[simp] theorem setOlen_arg (s : State) (v : Word) : (s.setOlen v).arg = s.arg := rfl
@[simp] theorem setOlen_res (s : State) (v : Word) : (s.setOlen v).res = s.res := rfl
@[simp] theorem setOlen_mem (s : State) (v : Word) : (s.setOlen v).mem = s.mem := rfl
@[simp] theorem setOlen_epoch (s : State) (v : Word) : (s.setOlen v).epoch = s.epoch := rfl
@[simp] theorem setOlen_draws (s : State) (v : Word) : (s.setOlen v).draws = s.draws := rfl
@[simp] theorem setOlen_turns (s : State) (v : Word) : (s.setOlen v).turns = s.turns := rfl
@[simp] theorem setOlen_resp (s : State) (v : Word) : (s.setOlen v).resp = s.resp := rfl

@[simp] theorem complete_params (s : State) (c : ErrCode) : (s.complete c).params = s.params := rfl
@[simp] theorem complete_cmd (s : State) (c : ErrCode) : (s.complete c).cmd = s.cmd := rfl
@[simp] theorem complete_status (s : State) (c : ErrCode) : (s.complete c).status = s.status.completed c := rfl
@[simp] theorem complete_ilen (s : State) (c : ErrCode) : (s.complete c).ilen = s.ilen := rfl
@[simp] theorem complete_olen (s : State) (c : ErrCode) : (s.complete c).olen = s.olen := rfl
@[simp] theorem complete_arg (s : State) (c : ErrCode) : (s.complete c).arg = s.arg := rfl
@[simp] theorem complete_res (s : State) (c : ErrCode) : (s.complete c).res = s.res := rfl
@[simp] theorem complete_mem (s : State) (c : ErrCode) : (s.complete c).mem = s.mem := rfl
@[simp] theorem complete_epoch (s : State) (c : ErrCode) : (s.complete c).epoch = s.epoch := rfl
@[simp] theorem complete_draws (s : State) (c : ErrCode) : (s.complete c).draws = s.draws := rfl
@[simp] theorem complete_turns (s : State) (c : ErrCode) : (s.complete c).turns = s.turns := rfl
@[simp] theorem complete_resp (s : State) (c : ErrCode) : (s.complete c).resp = s.resp := rfl

@[simp] theorem badCommand_params (s : State) : (s.badCommand).params = s.params := rfl
@[simp] theorem badCommand_cmd (s : State) : (s.badCommand).cmd = s.cmd := rfl
@[simp] theorem badCommand_status (s : State) : (s.badCommand).status = s.status.completed .badCmd := rfl
@[simp] theorem badCommand_ilen (s : State) : (s.badCommand).ilen = s.ilen := rfl
@[simp] theorem badCommand_olen (s : State) : (s.badCommand).olen = s.olen := rfl
@[simp] theorem badCommand_arg (s : State) : (s.badCommand).arg = s.arg := rfl
@[simp] theorem badCommand_res (s : State) : (s.badCommand).res = s.res := rfl
@[simp] theorem badCommand_mem (s : State) : (s.badCommand).mem = s.mem := rfl
@[simp] theorem badCommand_epoch (s : State) : (s.badCommand).epoch = s.epoch := rfl
@[simp] theorem badCommand_draws (s : State) : (s.badCommand).draws = s.draws := rfl
@[simp] theorem badCommand_turns (s : State) : (s.badCommand).turns = s.turns := rfl
@[simp] theorem badCommand_resp (s : State) : (s.badCommand).resp = s.resp := rfl

@[simp] theorem writeBytes_params (s : State) (a : Nat) (bs : List Byte) : (s.writeBytes a bs).params = s.params := rfl
@[simp] theorem writeBytes_cmd (s : State) (a : Nat) (bs : List Byte) : (s.writeBytes a bs).cmd = s.cmd := rfl
@[simp] theorem writeBytes_status (s : State) (a : Nat) (bs : List Byte) : (s.writeBytes a bs).status = s.status := rfl
@[simp] theorem writeBytes_ilen (s : State) (a : Nat) (bs : List Byte) : (s.writeBytes a bs).ilen = s.ilen := rfl
@[simp] theorem writeBytes_olen (s : State) (a : Nat) (bs : List Byte) : (s.writeBytes a bs).olen = s.olen := rfl
@[simp] theorem writeBytes_arg (s : State) (a : Nat) (bs : List Byte) : (s.writeBytes a bs).arg = s.arg := rfl
@[simp] theorem writeBytes_res (s : State) (a : Nat) (bs : List Byte) : (s.writeBytes a bs).res = s.res := rfl
@[simp] theorem writeBytes_mem (s : State) (a : Nat) (bs : List Byte) : (s.writeBytes a bs).mem = s.mem.setList a bs := rfl
@[simp] theorem writeBytes_epoch (s : State) (a : Nat) (bs : List Byte) : (s.writeBytes a bs).epoch = s.epoch := rfl
@[simp] theorem writeBytes_draws (s : State) (a : Nat) (bs : List Byte) : (s.writeBytes a bs).draws = s.draws := rfl
@[simp] theorem writeBytes_turns (s : State) (a : Nat) (bs : List Byte) : (s.writeBytes a bs).turns = s.turns := rfl
@[simp] theorem writeBytes_resp (s : State) (a : Nat) (bs : List Byte) : (s.writeBytes a bs).resp = s.resp := rfl

@[simp] theorem writeObuf_params (s : State) (t : List Byte) : (s.writeObuf t).params = s.params := rfl
@[simp] theorem writeObuf_cmd (s : State) (t : List Byte) : (s.writeObuf t).cmd = s.cmd := rfl
@[simp] theorem writeObuf_status (s : State) (t : List Byte) : (s.writeObuf t).status = s.status := rfl
@[simp] theorem writeObuf_ilen (s : State) (t : List Byte) : (s.writeObuf t).ilen = s.ilen := rfl
@[simp] theorem writeObuf_olen (s : State) (t : List Byte) : (s.writeObuf t).olen = s.olen := rfl
@[simp] theorem writeObuf_arg (s : State) (t : List Byte) : (s.writeObuf t).arg = s.arg := rfl
@[simp] theorem writeObuf_res (s : State) (t : List Byte) : (s.writeObuf t).res = s.res := rfl
@[simp] theorem writeObuf_mem (s : State) (t : List Byte) : (s.writeObuf t).mem = s.mem.setList obufBase t := rfl
@[simp] theorem writeObuf_epoch (s : State) (t : List Byte) : (s.writeObuf t).epoch = s.epoch := rfl
@[simp] theorem writeObuf_draws (s : State) (t : List Byte) : (s.writeObuf t).draws = s.draws := rfl
@[simp] theorem writeObuf_turns (s : State) (t : List Byte) : (s.writeObuf t).turns = s.turns := rfl
@[simp] theorem writeObuf_resp (s : State) (t : List Byte) : (s.writeObuf t).resp = s.resp := rfl

@[simp] theorem accept_params (s : State) (w : Word) : (s.accept w).params = s.params := rfl
@[simp] theorem accept_cmd (s : State) (w : Word) : (s.accept w).cmd = w := rfl
@[simp] theorem accept_status (s : State) (w : Word) : (s.accept w).status = s.status.accepted := rfl
@[simp] theorem accept_ilen (s : State) (w : Word) : (s.accept w).ilen = s.ilen := rfl
@[simp] theorem accept_olen (s : State) (w : Word) : (s.accept w).olen = s.olen := rfl
@[simp] theorem accept_arg (s : State) (w : Word) : (s.accept w).arg = s.arg := rfl
@[simp] theorem accept_res (s : State) (w : Word) : (s.accept w).res = s.res := rfl
@[simp] theorem accept_mem (s : State) (w : Word) : (s.accept w).mem = s.mem := rfl
@[simp] theorem accept_epoch (s : State) (w : Word) : (s.accept w).epoch = s.epoch := rfl
@[simp] theorem accept_draws (s : State) (w : Word) : (s.accept w).draws = s.draws := rfl
@[simp] theorem accept_turns (s : State) (w : Word) : (s.accept w).turns = s.turns := rfl
@[simp] theorem accept_resp (s : State) (w : Word) : (s.accept w).resp = s.resp := rfl

@[simp] theorem ignoreBusyWrite_params (s : State) : (s.ignoreBusyWrite).params = s.params := rfl
@[simp] theorem ignoreBusyWrite_cmd (s : State) : (s.ignoreBusyWrite).cmd = s.cmd := rfl
@[simp] theorem ignoreBusyWrite_status (s : State) : (s.ignoreBusyWrite).status = s.status.writeIgnored := rfl
@[simp] theorem ignoreBusyWrite_ilen (s : State) : (s.ignoreBusyWrite).ilen = s.ilen := rfl
@[simp] theorem ignoreBusyWrite_olen (s : State) : (s.ignoreBusyWrite).olen = s.olen := rfl
@[simp] theorem ignoreBusyWrite_arg (s : State) : (s.ignoreBusyWrite).arg = s.arg := rfl
@[simp] theorem ignoreBusyWrite_res (s : State) : (s.ignoreBusyWrite).res = s.res := rfl
@[simp] theorem ignoreBusyWrite_mem (s : State) : (s.ignoreBusyWrite).mem = s.mem := rfl
@[simp] theorem ignoreBusyWrite_epoch (s : State) : (s.ignoreBusyWrite).epoch = s.epoch := rfl
@[simp] theorem ignoreBusyWrite_draws (s : State) : (s.ignoreBusyWrite).draws = s.draws := rfl
@[simp] theorem ignoreBusyWrite_turns (s : State) : (s.ignoreBusyWrite).turns = s.turns := rfl
@[simp] theorem ignoreBusyWrite_resp (s : State) : (s.ignoreBusyWrite).resp = s.resp := rfl

@[simp] theorem writeStatus_params (s : State) (v : Word) : (s.writeStatus v).params = s.params := rfl
@[simp] theorem writeStatus_cmd (s : State) (v : Word) : (s.writeStatus v).cmd = s.cmd := rfl
@[simp] theorem writeStatus_status (s : State) (v : Word) : (s.writeStatus v).status = s.status.writeOneToClear v := rfl
@[simp] theorem writeStatus_ilen (s : State) (v : Word) : (s.writeStatus v).ilen = s.ilen := rfl
@[simp] theorem writeStatus_olen (s : State) (v : Word) : (s.writeStatus v).olen = s.olen := rfl
@[simp] theorem writeStatus_arg (s : State) (v : Word) : (s.writeStatus v).arg = s.arg := rfl
@[simp] theorem writeStatus_res (s : State) (v : Word) : (s.writeStatus v).res = s.res := rfl
@[simp] theorem writeStatus_mem (s : State) (v : Word) : (s.writeStatus v).mem = s.mem := rfl
@[simp] theorem writeStatus_epoch (s : State) (v : Word) : (s.writeStatus v).epoch = s.epoch := rfl
@[simp] theorem writeStatus_draws (s : State) (v : Word) : (s.writeStatus v).draws = s.draws := rfl
@[simp] theorem writeStatus_turns (s : State) (v : Word) : (s.writeStatus v).turns = s.turns := rfl
@[simp] theorem writeStatus_resp (s : State) (v : Word) : (s.writeStatus v).resp = s.resp := rfl

@[simp] theorem platformReset_params (s : State) : (s.platformReset).params = s.params := rfl
@[simp] theorem platformReset_cmd (s : State) : (s.platformReset).cmd = 0 := rfl
@[simp] theorem platformReset_status (s : State) : (s.platformReset).status = Status.reset := rfl
@[simp] theorem platformReset_ilen (s : State) : (s.platformReset).ilen = 0 := rfl
@[simp] theorem platformReset_olen (s : State) : (s.platformReset).olen = 0 := rfl
@[simp] theorem platformReset_arg (s : State) : (s.platformReset).arg = 0 := rfl
@[simp] theorem platformReset_res (s : State) : (s.platformReset).res = 0 := rfl
@[simp] theorem platformReset_mem (s : State) : (s.platformReset).mem = [] := rfl
@[simp] theorem platformReset_epoch (s : State) : (s.platformReset).epoch = s.epoch + 1 := rfl
@[simp] theorem platformReset_draws (s : State) : (s.platformReset).draws = s.draws := rfl
@[simp] theorem platformReset_turns (s : State) : (s.platformReset).turns = s.turns := rfl
@[simp] theorem platformReset_resp (s : State) : (s.platformReset).resp = none := rfl

@[simp] theorem accepted_busy (s : Status) : (s.accepted).busy = true := rfl
@[simp] theorem accepted_done (s : Status) : (s.accepted).done = false := rfl
@[simp] theorem accepted_err (s : Status) : (s.accepted).err = 0 := rfl
@[simp] theorem accepted_wbusy (s : Status) : (s.accepted).wbusy = s.wbusy := rfl

@[simp] theorem completed_busy (s : Status) (c : ErrCode) : (s.completed c).busy = false := rfl
@[simp] theorem completed_done (s : Status) (c : ErrCode) : (s.completed c).done = true := rfl
@[simp] theorem completed_err (s : Status) (c : ErrCode) : (s.completed c).err = c.bits := rfl
@[simp] theorem completed_wbusy (s : Status) (c : ErrCode) : (s.completed c).wbusy = s.wbusy := rfl

@[simp] theorem writeOneToClear_busy (s : Status) (v : Word) : (s.writeOneToClear v).busy = s.busy := rfl
@[simp] theorem writeOneToClear_done (s : Status) (v : Word) : (s.writeOneToClear v).done = (s.done && !v.getLsbD 1) := rfl
@[simp] theorem writeOneToClear_err (s : Status) (v : Word) : (s.writeOneToClear v).err = s.err := rfl
@[simp] theorem writeOneToClear_wbusy (s : Status) (v : Word) : (s.writeOneToClear v).wbusy = (s.wbusy && !v.getLsbD 8) := rfl

@[simp] theorem writeIgnored_busy (s : Status) : (s.writeIgnored).busy = s.busy := rfl
@[simp] theorem writeIgnored_done (s : Status) : (s.writeIgnored).done = s.done := rfl
@[simp] theorem writeIgnored_err (s : Status) : (s.writeIgnored).err = s.err := rfl
@[simp] theorem writeIgnored_wbusy (s : Status) : (s.writeIgnored).wbusy = true := rfl

/-! A byte of memory depends on `mem` and `epoch` alone. -/

@[simp] theorem setRes_readByte (s : State) (v : Word) (x : Nat) : (s.setRes v).readByte x = s.readByte x := rfl
@[simp] theorem setOlen_readByte (s : State) (v : Word) (x : Nat) : (s.setOlen v).readByte x = s.readByte x := rfl
@[simp] theorem complete_readByte (s : State) (c : ErrCode) (x : Nat) : (s.complete c).readByte x = s.readByte x := rfl
@[simp] theorem badCommand_readByte (s : State) (x : Nat) : (s.badCommand).readByte x = s.readByte x := rfl
@[simp] theorem accept_readByte (s : State) (w : Word) (x : Nat) : (s.accept w).readByte x = s.readByte x := rfl
@[simp] theorem ignoreBusyWrite_readByte (s : State) (x : Nat) : (s.ignoreBusyWrite).readByte x = s.readByte x := rfl
@[simp] theorem writeStatus_readByte (s : State) (v : Word) (x : Nat) : (s.writeStatus v).readByte x = s.readByte x := rfl

end Sys2Proof.Machine
end

