-- ==== Sys2Proof/Laws/Memory.lean ====
section
/-! SUPPORT. The buffers' memory: read after write, the canonical form, and what writing a run of
bytes does to every byte. -/

namespace Sys2Proof.Machine

theorem Memory.get?_set_same (m : Memory) (a : Nat) (b : Byte) : (m.set a b).get? a = some b := by
  induction m with
  | nil => simp [Memory.set, Memory.get?]
  | cons c m ih =>
    obtain ⟨k, v⟩ := c
    unfold Memory.set
    split
    · simp [Memory.get?]
    · split
      · simp [Memory.get?]
      · rename_i h; simp [Memory.get?, ih, Ne.symm h]

theorem Memory.get?_set_other (m : Memory) {a x : Nat} (b : Byte) (h : x ≠ a) :
    (m.set a b).get? x = m.get? x := by
  induction m with
  | nil => simp [Memory.set, Memory.get?, Ne.symm h]
  | cons c m ih =>
    obtain ⟨k, v⟩ := c
    unfold Memory.set
    split
    · simp [Memory.get?, Ne.symm h]
    · split
      · rename_i hk; subst hk; simp [Memory.get?, Ne.symm h]
      · simp [Memory.get?, ih]

/-- The cells of a memory after a write: the new one and cells of the old memory. -/
theorem Memory.mem_set {m : Memory} {a : Nat} {b : Byte} {c : Host.Cell} (h : c ∈ m.set a b) :
    c = (a, b) ∨ c ∈ m := by
  induction m with
  | nil => simpa [Memory.set] using h
  | cons d m ih =>
    obtain ⟨k, v⟩ := d
    unfold Memory.set at h
    split at h
    · simpa using h
    · split at h
      · simp only [List.mem_cons] at h ⊢; tauto
      · simp only [List.mem_cons] at h ⊢
        rcases h with h | h
        · exact .inr (.inl h)
        · rcases ih h with h | h
          · exact .inl h
          · exact .inr (.inr h)

/-- Writing a byte keeps the canonical form. -/
theorem Memory.set_wf {m : Memory} (a : Nat) (b : Byte) (h : m.wf) : (m.set a b).wf := by
  induction m with
  | nil => simp [Memory.set, Memory.wf]
  | cons d m ih =>
    obtain ⟨k, v⟩ := d
    simp only [Memory.wf, List.map_cons, List.pairwise_cons, List.mem_map] at h
    obtain ⟨h1, h2⟩ := h
    unfold Memory.set
    split
    · rename_i hak
      simp only [Memory.wf, List.map_cons, List.pairwise_cons, List.mem_cons, List.mem_map]
      refine ⟨?_, fun x hx => h1 x hx, h2⟩
      rintro x (rfl | hx)
      · exact hak
      · exact lt_trans hak (h1 x hx)
    · split
      · rename_i hak; subst hak
        simp only [Memory.wf, List.map_cons, List.pairwise_cons, List.mem_map]
        exact ⟨h1, h2⟩
      · simp only [Memory.wf, List.map_cons, List.pairwise_cons, List.mem_map]
        refine ⟨?_, ih h2⟩
        rintro x ⟨c, hc, rfl⟩
        rcases Memory.mem_set hc with rfl | hc
        · simp only; omega
        · exact h1 _ ⟨c, hc, rfl⟩

theorem Memory.setList_wf {m : Memory} (a : Nat) (bs : List Byte) (h : m.wf) : (m.setList a bs).wf := by
  induction bs generalizing m a with
  | nil => exact h
  | cons b bs ih => exact ih (a + 1) (Memory.set_wf a b h)

theorem Memory.mem_setList {m : Memory} {a : Nat} {bs : List Byte} {c : Host.Cell}
    (h : c ∈ m.setList a bs) : (a ≤ c.1 ∧ c.1 < a + bs.length) ∨ c ∈ m := by
  induction bs generalizing m a with
  | nil => exact .inr h
  | cons b bs ih =>
    simp only [List.length_cons]
    rcases ih h with h | h
    · left; omega
    · rcases Memory.mem_set h with rfl | h
      · left; simp
      · exact .inr h

/-- What writing a run of bytes does to every cell. -/
theorem Memory.get?_setList (m : Memory) (a : Nat) (bs : List Byte) (x : Nat) :
    (m.setList a bs).get? x = if a ≤ x ∧ x < a + bs.length then bs[x - a]? else m.get? x := by
  induction bs generalizing m a with
  | nil =>
    have : ¬(a ≤ x ∧ x < a + ([] : List Byte).length) := by simp
    rw [if_neg this]; rfl
  | cons b bs ih =>
    simp only [Memory.setList, ih, List.length_cons]
    by_cases hx : x = a
    · subst hx
      rw [if_neg (by omega), if_pos (by omega)]
      simp [Memory.get?_set_same]
    · by_cases h : a + 1 ≤ x ∧ x < a + 1 + bs.length
      · rw [if_pos h, if_pos (by omega), show x - a = (x - (a + 1)) + 1 by omega,
          List.getElem?_cons_succ]
      · rw [if_neg h, if_neg (by omega), Memory.get?_set_other m b hx]

/-- Every byte after a run of bytes is written: the run's bytes inside it, the old bytes outside. -/
theorem readByte_writeBytes (s : State) (a : Nat) (bs : List Byte) (x : Nat) :
    (s.writeBytes a bs).readByte x
      = if a ≤ x ∧ x < a + bs.length then bs.getD (x - a) 0 else s.readByte x := by
  unfold State.readByte State.writeBytes
  simp only [Memory.get?_setList]
  split
  · rename_i h
    have : x - a < bs.length := by omega
    simp [List.getD, List.getElem?_eq_getElem this]
  · rfl

theorem readByte_writeBytes_outside (s : State) {a : Nat} {bs : List Byte} {x : Nat}
    (h : x < a ∨ a + bs.length ≤ x) : (s.writeBytes a bs).readByte x = s.readByte x := by
  rw [readByte_writeBytes, if_neg (by omega)]

/-- In the canonical form a listed cell is the one that is read. -/
theorem Memory.get?_of_mem {m : Memory} {c : Host.Cell} (hw : m.wf) (h : c ∈ m) :
    m.get? c.1 = some c.2 := by
  induction m with
  | nil => simp at h
  | cons d m ih =>
    obtain ⟨k, v⟩ := d
    simp only [Memory.wf, List.map_cons, List.pairwise_cons, List.mem_map] at hw
    rcases List.mem_cons.mp h with rfl | h
    · simp [Memory.get?]
    · have : k < c.1 := hw.1 _ ⟨c, h, rfl⟩
      simp only [Memory.get?, if_neg (Nat.ne_of_lt this)]
      exact ih hw.2 h

theorem Memory.mem_of_get? {m : Memory} {a : Nat} {b : Byte} (h : m.get? a = some b) : (a, b) ∈ m := by
  induction m with
  | nil => simp [Memory.get?] at h
  | cons d m ih =>
    obtain ⟨k, v⟩ := d
    unfold Memory.get? at h
    split at h
    · rename_i hk; subst hk; simp at h; simp [h]
    · exact List.mem_cons_of_mem _ (ih h)

/-- Equal memories are equal data: two canonical memories with the same cells are the same list. -/
theorem Memory.ext_get? {m n : Memory} (hm : m.wf) (hn : n.wf) (h : ∀ a, m.get? a = n.get? a) :
    m = n := by
  have key : ∀ {m n : Memory}, m.wf → n.wf → (∀ a, m.get? a = n.get? a) → ∀ c, c ∈ m → c ∈ n :=
    fun hm _ h c hc => Memory.mem_of_get? (by rw [← h, Memory.get?_of_mem hm hc])
  have hp : m.Perm n := by
    have nd : ∀ {m : Memory}, m.wf → m.Nodup := fun hw =>
      List.Nodup.of_map Prod.fst (hw.imp fun h => Nat.ne_of_lt h)
    exact (List.perm_ext_iff_of_nodup (nd hm) (nd hn)).mpr fun c =>
      ⟨key hm hn h c, key hn hm (fun a => (h a).symm) c⟩
  have srt : ∀ {m : Memory}, m.wf → m.Pairwise (fun c d => c.1 < d.1) := fun hw =>
    List.pairwise_map.mp hw
  exact hp.eq_of_pairwise (fun a b _ _ h1 h2 => absurd h1 (by omega)) (srt hm) (srt hn)

/-- The memory of the state after reset is canonical. -/
theorem reset_mem_wf : State.reset.mem.wf := List.Pairwise.nil

end Sys2Proof.Machine
end

