-- ==== Sys2Proof/Laws/Step.lean ====
section
/-! SUPPORT. What a command, an access and a step can do, said once. -/

namespace Sys2Proof.Machine

/-! ## Commands -/

/-- Every command ends in a next state. -/
theorem exec_next (i : Instr) (s : State) : ∃ t, exec i s = .next t := by
  cases i with
  | encgrp n => simp only [exec, execEncgrp]; split <;> exact ⟨_, rfl⟩
  | _ => exact ⟨_, rfl⟩

/-- VALIDATE's and DECODE's code: capacity before the validator (R183). -/
theorem textCode_cases (s : State) :
    (s.params.cap < s.ilen.toNat ∧ textCode s = .capacity) ∨
    (s.ilen.toNat ≤ s.params.cap ∧ textCode s = validate s.params (s.frame s.ilen.toNat)) := by
  unfold textCode
  split
  · exact .inl ⟨‹_›, rfl⟩
  · exact .inr ⟨by omega, rfl⟩

/-- ENCODE: the frame does not fit, or its encoding is written (R145). -/
theorem encodeFrame_cases (s : State) :
    ((s.params.cap < s.ilen.toNat ∨ s.params.cap < encodedLength s.ilen.toNat) ∧
      encodeFrame s = (s.setOlen 0).complete .capacity) ∨
    (s.ilen.toNat ≤ s.params.cap ∧ encodedLength s.ilen.toNat ≤ s.params.cap ∧
      encodeFrame s = ((s.writeObuf (encodeBytes s.params (s.frame s.ilen.toNat))).setOlen
        (BitVec.ofNat 32 (encodedLength s.ilen.toNat))).complete .ok) := by
  unfold encodeFrame
  simp only
  split
  · rename_i h; exact .inl ⟨by omega, rfl⟩
  · rename_i h; exact .inr ⟨by omega, by omega, rfl⟩

/-- DECODE: the text is valid and its bytes are written, or OLEN <- 0 with the error (R166). -/
theorem decodeFrame_cases (s : State) :
    (textCode s = .ok ∧ decodeFrame s =
      ((s.writeObuf (decodeGroups s.params (trailingPads s.params (s.frame s.ilen.toNat))
          (s.frame s.ilen.toNat))).setOlen
        (BitVec.ofNat 32 (decodeGroups s.params (trailingPads s.params (s.frame s.ilen.toNat))
          (s.frame s.ilen.toNat)).length)).complete .ok) ∨
    (textCode s ≠ .ok ∧ decodeFrame s = (s.setOlen 0).complete (textCode s)) := by
  unfold decodeFrame
  cases h : textCode s <;> simp

/-- The length of an encoding (R146). -/
theorem encodeBytes_length (p : Params) (x : List Byte) :
    (encodeBytes p x).length = encodedLength x.length := by
  induction x using encodeBytes.induct with
  | case1 => simp [encodeBytes, encodedLength]
  | case2 => simp [encodeBytes, encGroup1, encodedLength]
  | case3 => simp [encodeBytes, encGroup2, encodedLength]
  | case4 b0 b1 b2 rest ih => simp [encodeBytes, encGroup3, ih, encodedLength]; omega

/-- A group gives at most three bytes. -/
theorem decGroup_length_le (p : Params) (k : Nat) (s0 s1 s2 s3 : Byte) :
    (decGroup p k s0 s1 s2 s3).length ≤ 3 := by
  unfold decGroup
  split <;> simp

/-- A decoding is no longer than three bytes a group. -/
theorem decodeGroups_length_le (p : Params) (k : Nat) (t : List Byte) :
    (decodeGroups p k t).length ≤ 3 * (t.length / 4) := by
  induction t using decodeGroups.induct with
  | case1 s0 s1 s2 s3 rest ih =>
    have := decGroup_length_le p (if rest.isEmpty then k else 0) s0 s1 s2 s3
    simp only [decodeGroups, List.length_append, List.length_cons]
    omega
  | case2 t h =>
    have : decodeGroups p k t = [] := by
      unfold decodeGroups
      split
      · exact absurd rfl (h _ _ _ _ _)
      · rfl
    simp [this]

/-- A frame has as many elements as were asked for. -/
@[simp] theorem frame_length (s : State) (n : Nat) : (s.frame n).length = n := by simp [State.frame]

/-- Element i of a frame is IBUF[i] (R52). -/
theorem frame_getElem (s : State) {n i : Nat} (h : i < n) :
    (s.frame n)[i]'(by simpa using h) = s.ibuf i := by simp [State.frame]

/-! ## Accesses -/

/-- Where an access the block does not refuse goes. -/
theorem resolve_cases {cap : Nat} {w : Width} {off : Offset} {t : Target}
    (h : resolve cap w off = some t) :
    (∃ r, t = .reg r ∧ w = .w32 ∧ regAt off.toNat = some r) ∨
    (∃ a, t = .ibuf a ∧ off.toNat = ibufBase + a ∧ bufferOk cap w a = true) ∨
    (∃ a, t = .obuf a ∧ off.toNat = obufBase + a ∧ bufferOk cap w a = true) := by
  unfold resolve at h
  simp only at h
  split at h
  · split at h
    · rename_i hw
      cases hr : regAt off.toNat with
      | none => simp [hr] at h
      | some r => exact .inl ⟨r, by simpa [hr] using h.symm, hw, rfl⟩
    · simp at h
  · split at h
    · split at h
      · rename_i hb
        have e : off.toNat = ibufBase + (off.toNat - 0x10000) := by simp only [ibufBase]; omega
        exact .inr (.inl ⟨off.toNat - 0x10000, (Option.some.inj h).symm, e, hb⟩)
      · simp at h
    · split at h
      · split at h
        · rename_i hb
          have e : off.toNat = obufBase + (off.toNat - 0x20000) := by simp only [obufBase]; omega
          exact .inr (.inr ⟨off.toNat - 0x20000, (Option.some.inj h).symm, e, hb⟩)
        · simp at h
      · simp at h

/-- A register's offset leads to that register. -/
theorem regAt_offset (r : Reg) : regAt r.offset = some r := by cases r <;> rfl

theorem bytes_cases (w : Width) : w.bytes = 1 ∨ w.bytes = 2 ∨ w.bytes = 4 := by
  cases w <;> simp [Width.bytes]

/-- An allowed register access reaches a register. -/
theorem resolve_register {cap : Nat} {w : Width} {off : Offset} (h : RegisterAccess w off) :
    ∃ r, resolve cap w off = some (.reg r) := by
  obtain ⟨rfl, h4, hl⟩ := h
  have : off.toNat = 0 ∨ off.toNat = 4 ∨ off.toNat = 8 ∨ off.toNat = 12 ∨ off.toNat = 16 ∨
      off.toNat = 20 ∨ off.toNat = 24 := by omega
  unfold resolve
  rcases this with h | h | h | h | h | h | h <;> simp [h, regAt]

/-- An allowed buffer access reaches its byte offset in its buffer. -/
theorem resolve_buffer {cap : Nat} {w : Width} {off : Offset} (hc : cap ≤ 65536)
    (h : BufferAccess cap w off) :
    (off.toNat < 0x20000 ∧ resolve cap w off = some (.ibuf (off.toNat - 0x10000))) ∨
    (0x20000 ≤ off.toNat ∧ resolve cap w off = some (.obuf (off.toNat - 0x20000))) := by
  obtain ⟨ha, h⟩ := h
  have ok : ∀ base, base % 4 = 0 → base ≤ off.toNat → off.toNat + w.bytes ≤ base + cap →
      bufferOk cap w (off.toNat - base) = true := by
    intro base h4 h1 h2
    simp only [bufferOk, Bool.and_eq_true, beq_iff_eq, decide_eq_true_eq]
    rcases bytes_cases w with hw | hw | hw <;> rw [hw] at ha h2 ⊢ <;> omega
  have hw : 0 < w.bytes := by rcases bytes_cases w with hw | hw | hw <;> omega
  unfold resolve
  simp only
  rcases h with ⟨h1, h2⟩ | ⟨h1, h2⟩
  · exact .inl ⟨by omega, by rw [if_neg (by omega), if_pos (by omega), if_pos (ok _ rfl h1 h2)]⟩
  · exact .inr ⟨h1, by
      rw [if_neg (by omega), if_neg (by omega), if_pos (by omega), if_pos (ok _ rfl h1 h2)]⟩

theorem storedBytes_length (w : Width) (v : Word) : (storedBytes w v).length = w.bytes := by
  cases w <;> rfl

/-- A read changes the response and the count of draws, and nothing else (R60). -/
theorem hostRead_cases (w : Width) (off : Offset) (s : State) :
    (resolve s.params.cap w off = none ∧ hostRead w off s = { s with resp := some .busError }) ∨
    (∃ t, resolve s.params.cap w off = some t ∧ s.status.busy = true ∧ t.isOutput = true ∧
      hostRead w off s = { s with resp := some (.data (truncate w (Config.freeWord s.draws))), draws := s.draws + 1 }) ∨
    (∃ t, resolve s.params.cap w off = some t ∧ ¬(s.status.busy = true ∧ t.isOutput = true) ∧
      hostRead w off s = { s with resp := some (.data (s.readTarget w t)) }) := by
  unfold hostRead
  cases h : resolve s.params.cap w off with
  | none => exact .inl ⟨rfl, rfl⟩
  | some t =>
    by_cases hb : s.status.busy = true ∧ t.isOutput = true
    · exact .inr (.inl ⟨t, rfl, hb.1, hb.2, by simp [hb.1, hb.2]⟩)
    · exact .inr (.inr ⟨t, rfl, hb, by simp only [Bool.and_eq_true]; rw [if_neg hb]⟩)

/-- Everything a write that is not refused can do. -/
theorem writeTarget_cases (w : Width) (v : Word) (s : State) (t : Target) :
    (s.status.busy = true ∧ writeTarget w v s t = s.ignoreBusyWrite) ∨
    writeTarget w v s t = s ∨
    (t = .reg .status ∧ writeTarget w v s t = s.writeStatus v) ∨
    (t = .reg .cmd ∧ s.status.busy = false ∧ writeTarget w v s t = s.accept v) ∨
    (t = .reg .ilen ∧ s.status.busy = false ∧ writeTarget w v s t = { s with ilen := v }) ∨
    (t = .reg .arg ∧ s.status.busy = false ∧ writeTarget w v s t = { s with arg := v }) ∨
    (∃ a, t = .ibuf a ∧ s.status.busy = false ∧
      writeTarget w v s t = s.writeBytes (ibufBase + a) (storedBytes w v)) ∨
    (∃ a, t = .obuf a ∧ s.status.busy = false ∧
      writeTarget w v s t = s.writeBytes (obufBase + a) (storedBytes w v)) := by
  cases hb : s.status.busy <;> cases t with
  | reg r => cases r <;> simp [writeTarget, hb]
  | ibuf a => simp [writeTarget, hb]
  | obuf a => simp [writeTarget, hb]

/-- A write is refused, or goes to its target. -/
theorem hostWrite_cases (w : Width) (off : Offset) (v : Word) (s : State) :
    (resolve s.params.cap w off = none ∧ hostWrite w off v s = { s with resp := some .busError }) ∨
    (∃ t, resolve s.params.cap w off = some t ∧
      hostWrite w off v s = { writeTarget w v s t with resp := some .written }) := by
  unfold hostWrite
  cases h : resolve s.params.cap w off with
  | none => exact .inl ⟨rfl, rfl⟩
  | some t => exact .inr ⟨t, rfl, rfl⟩

/-! ## Steps -/

/-- The BLOCK step: idle, a command, or BADCMD (R204). -/
theorem blockStep_cases (s : State) :
    (s.status.busy = false ∧ blockStep s = .next s) ∨
    (∃ i, s.status.busy = true ∧ decode s.cmd = .ok i ∧ blockStep s = exec i s) ∨
    (∃ e, s.status.busy = true ∧ decode s.cmd = .error e ∧ blockStep s = .next s.badCommand) := by
  unfold blockStep
  cases hb : s.status.busy with
  | false => exact .inl ⟨rfl, rfl⟩
  | true =>
    cases hd : decode s.cmd with
    | ok i => exact .inr (.inl ⟨i, rfl, rfl, rfl⟩)
    | error e => exact .inr (.inr ⟨e, rfl, rfl, rfl⟩)

/-- Every step, by the move it makes. -/
theorem step_cases (s : State) :
    (s.turns = [] ∧ step s = blockStep s) ∨
    (∃ r, s.turns = .block :: r ∧ step s = blockStep { s with turns := r }) ∨
    (∃ a r, s.turns = .access a :: r ∧ step s = .next (hostAccess a { s with turns := r })) ∨
    (∃ r, s.turns = .reset :: r ∧ step s = .next (State.platformReset { s with turns := r })) ∨
    (∃ a r, s.turns = .accessInReset a :: r ∧ step s = .refused .accessInReset) := by
  unfold step takeTurn
  match s.turns with
  | [] => exact .inl ⟨rfl, rfl⟩
  | .block :: r => exact .inr (.inl ⟨r, rfl, rfl⟩)
  | .access a :: r => exact .inr (.inr (.inl ⟨a, r, rfl, rfl⟩))
  | .reset :: r => exact .inr (.inr (.inr (.inl ⟨r, rfl, rfl⟩)))
  | .accessInReset a :: r => exact .inr (.inr (.inr (.inr ⟨a, r, rfl, rfl⟩)))

/-- The BLOCK step ends in a next state. -/
theorem blockStep_next (s : State) : ∃ t, blockStep s = .next t := by
  rcases blockStep_cases s with ⟨_, h⟩ | ⟨i, _, _, h⟩ | ⟨_, _, _, h⟩
  · exact ⟨_, h⟩
  · exact h ▸ exec_next i s
  · exact ⟨_, h⟩

end Sys2Proof.Machine
end

