-- ==== Sys2Proof/Laws/HostProgram.lean ====
section
/-! SUPPORT. Host programs: what a move of the host is for each kind of line, and how moves chain. -/

namespace Sys2Proof.Machine

@[simp] theorem HostSys.assign_block (h : HostSys) (x v) : (h.assign x v).block = h.block := by cases x <;> rfl
@[simp] theorem HostSys.assign_prog (h : HostSys) (x v) : (h.assign x v).prog = h.prog := by cases x <;> rfl
@[simp] theorem HostSys.assign_line (h : HostSys) (x v) : (h.assign x v).line = h.line := by cases x <;> rfl
@[simp] theorem HostSys.assign_sched (h : HostSys) (x v) : (h.assign x v).sched = h.sched := by cases x <;> rfl

/-- A host access always completes, with the block changed as the access says. -/
theorem HostSys.blockMove_access (h : HostSys) (a : Access) :
    h.blockMove (.access a) = .next { h with block := hostAccess a h.block } := rfl

/-- BLOCK's move is the BLOCK step. -/
theorem HostSys.blockMove_block {h : HostSys} {b : State} (hb : blockStep h.block = .next b) :
    h.blockMove .block = .next { h with block := b } := by
  have : Machine.step { h.block with turns := .block :: h.block.turns } = blockStep h.block := rfl
  rw [HostSys.blockMove, this, hb]

/-- A write line is one access (R91). -/
theorem HostSys.hostMove_wr {h : HostSys} {w p v off} (hl : h.prog[h.line]? = some (.wr w p v))
    (ho : p.offset h.block.params h.vars = some off) :
    h.hostMove = .next { h with
      block := hostWrite w off (v.eval h.block.params h.vars) h.block, line := h.line + 1 } := by
  simp only [HostSys.hostMove, hl, ho]
  rfl

/-- A read line is one access, and assigns what it returned if it returned data (R91, R58). -/
theorem HostSys.hostMove_rd {h : HostSys} {w p x off} (hl : h.prog[h.line]? = some (.rd w p x))
    (ho : p.offset h.block.params h.vars = some off) :
    (∃ v, (hostRead w off h.block).resp = some (.data v) ∧ h.hostMove =
      .next { HostSys.assign { h with block := hostRead w off h.block } x v with line := h.line + 1 }) ∨
    ((hostRead w off h.block).resp = some .busError ∧ h.hostMove =
      .next { h with block := hostRead w off h.block, line := h.line + 1 }) := by
  have hm : h.hostMove = h.access (.read w off) (some x) := by simp only [HostSys.hostMove, hl, ho]
  have ha : h.access (.read w off) (some x) =
      match (hostRead w off h.block).resp with
      | some (.data v) =>
        .next { HostSys.assign { h with block := hostRead w off h.block } x v with line := h.line + 1 }
      | _ => .next { h with block := hostRead w off h.block, line := h.line + 1 } := by
    simp only [HostSys.access, HostSys.blockMove_access, hostAccess]
    split <;> simp_all
  rw [hm, ha]
  rcases hostRead_cases w off h.block with ⟨_, e⟩ | ⟨_, _, _, _, e⟩ | ⟨_, _, _, e⟩
  · right; rw [e]; exact ⟨rfl, rfl⟩
  · left; rw [e]; exact ⟨_, rfl, rfl⟩
  · left; rw [e]; exact ⟨_, rfl, rfl⟩

/-- Under the eager schedule an idle block leaves the move to the host. -/
theorem HostSys.step_idle {h : HostSys} (hs : h.sched = []) (hb : h.block.status.busy = false) :
    h.step = h.hostMove := by
  simp only [HostSys.step, hs, hb]
  rfl

/-- The host's move when the schedule names it. -/
theorem HostSys.step_host {h : HostSys} {r} (hs : h.sched = none :: r) :
    h.step = HostSys.hostMove { h with sched := r } := by
  simp only [HostSys.step, hs]

/-- Under the eager schedule a busy block moves first. -/
theorem HostSys.step_busy {h : HostSys} {b : State} (hs : h.sched = []) (hb : h.block.status.busy = true)
    (he : blockStep h.block = .next b) : h.step = .next { h with block := b } := by
  have : h.step = h.blockMove .block := by simp only [HostSys.step, hs, hb, if_true]
  rw [this, HostSys.blockMove_block he]

/-- The first of several moves. -/
theorem HostSys.run_succ {h g : HostSys} {n : Nat} (hs : h.step = .next g) : h.run (n + 1) = g.run n := by
  simp only [HostSys.run, hs]

/-- The lines of a part of a program. -/
theorem line_of_prefix {ls prog : List HostStmt} {m k : Nat} {x : HostStmt}
    (hp : ls <+: prog.drop m) (hk : ls[k]? = some x) : prog[m + k]? = some x := by
  obtain ⟨t, ht⟩ := hp
  have hlt : k < ls.length := (List.getElem?_eq_some_iff.mp hk).1
  rw [← List.getElem?_drop, ← ht, List.getElem?_append_left hlt, hk]

/-- Running lines: the rest of them stands after the first. -/
theorem prefix_tail {x : HostStmt} {ls prog : List HostStmt} {m : Nat}
    (hp : x :: ls <+: prog.drop m) : ls <+: prog.drop (m + 1) := by
  obtain ⟨t, ht⟩ := hp
  refine ⟨t, ?_⟩
  rw [← List.drop_drop, ← ht]
  rfl

/-- A label's first line is where a jump to it goes. -/
theorem labelLine_eq {prog : List HostStmt} {l m : Nat} (h : LabelStands prog l m) : labelLine prog l = m := by
  obtain ⟨hm, hj⟩ := h
  obtain ⟨hlt, he⟩ := List.getElem?_eq_some_iff.mp hm
  unfold labelLine
  rw [List.findIdx_eq hlt]
  refine ⟨by simp [he], fun j hjm => ?_⟩
  have := hj j hjm
  rw [List.getElem?_eq_getElem (by omega)] at this
  simpa using this

end Sys2Proof.Machine
end

