-- ==== Sys2Proof/Laws/PerInstr.lean ====
section
/-! SUPPORT. The per-instruction family DecodeEncode: a well-formed command's word decodes to it. -/

namespace Sys2Proof.Laws.DecodeEncode

/-- The word of a well-formed command decodes to the command (30_encoding.md rules R84, R85). -/
def Statement (i : Instr) : Prop := i.wellFormed = true → Sys2Proof.decode (Sys2Proof.encode i) = .ok i

theorem symat : Statement .symat := fun _ => rfl
theorem classify : Statement .classify := fun _ => rfl
theorem validate : Statement .validate := fun _ => rfl
theorem encgrp (n : BitVec 2) : Statement (.encgrp n) := by
  unfold Statement
  revert n
  decide
theorem encode : Statement .encode := fun _ => rfl
theorem decgrp (final : Bool) : Statement (.decgrp final) := by
  unfold Statement
  revert final
  decide
theorem decode : Statement .decode := fun _ => rfl

end Sys2Proof.Laws.DecodeEncode
end

