-- ==== Sys2Proof/Tests/Slice0.lean ====
section
/-! SUPPORT. Tests. Expected values are those of spec/95_test_vectors.md (section named at each test) or
hand calculation from the rule named; the parameters of the tests are one admissible choice. Then one
witness for the hypotheses of every statement that has some, clause by clause at boundary values. -/

namespace Sys2Proof.Tests

open Sys2Proof Sys2Proof.Machine

/-! ## Helpers -/

/-- One admissible instance: SYM62 0x2D, SYM63 0x5F, PAD 0x3D, CAP 12. -/
def tParams : Params := ⟨0x2D, 0x5F, 0x3D, 12, 0x80000⟩

/-- The state after reset of that instance. -/
def tState : State := { State.reset with params := tParams }

/-- With a value in ARG. -/
def tArg (v : Word) : State := { tState with arg := v }

/-- With a frame in IBUF. -/
def tFrame (x : List Byte) : State :=
  { tState with ilen := BitVec.ofNat 32 x.length, mem := Memory.setList [] ibufBase x }

/-- With a value in ILEN only. -/
def tLen (n : Word) : State := { tState with ilen := n }

/-- With a command pending and moves to come. -/
def tPending (w : Word) (ts : List Turn) : State := { tState.accept w with turns := ts }

/-- With moves to come. -/
def tTurns (ts : List Turn) : State := { tState with turns := ts }

/-- The state an outcome ends in. -/
def ended : Host.Outcome State Fault Refusal → Option State
  | .next t => some t
  | _ => none

/-- RES and ERR after a command. -/
def resErr (o : Host.Outcome State Fault Refusal) : Option (Word × BitVec 4) :=
  (ended o).map fun t => (t.res, t.status.err)

/-- ERR, OLEN and the first `n` bytes of OBUF after a command. -/
def outErr (n : Nat) (o : Host.Outcome State Fault Refusal) : Option (BitVec 4 × Word × List Byte) :=
  (ended o).map fun t => (t.status.err, t.olen, (List.range n).map t.obuf)

/-! ## Decoding: words written out from R84 and the vectors of section 2.6 -/

theorem test_decode_symat : decode 0b00000000000000000000000000000001 = .ok .symat := by decide
theorem test_decode_classify : decode 0b00000000000000000000000000000010 = .ok .classify := by decide
theorem test_decode_validate : decode 0b00000000000000000000000000000011 = .ok .validate := by decide
theorem test_decode_encgrp_n1 : decode 0b00000000000000010000000000000100 = .ok (.encgrp 1) := by decide
theorem test_decode_encgrp_n3 : decode 0b00000000000000110000000000000100 = .ok (.encgrp 3) := by decide
theorem test_decode_encode : decode 0b00000000000000000000000000000101 = .ok .encode := by decide
theorem test_decode_decgrp : decode 0b00000000000000000000000000000110 = .ok (.decgrp false) := by decide
theorem test_decode_decgrp_final : decode 0b00000000000000000000000100000110 = .ok (.decgrp true) := by decide
theorem test_decode_decode : decode 0b00000000000000000000000000000111 = .ok .decode := by decide
theorem test_decode_zero : decode 0x00000000 = .error .reservedOp := by decide
theorem test_decode_op8 : decode 0x00000008 = .error .reservedOp := by decide
theorem test_decode_final_on_encode : decode 0x00000105 = .error .finalNotAllowed := by decide
theorem test_decode_bit31 : decode 0x80000001 = .error .reservedBits := by decide
theorem test_decode_bit9 : decode 0x00000206 = .error .reservedBits := by decide
theorem test_decode_n_on_decgrp : decode 0x00010006 = .error .nNotAllowed := by decide
theorem test_decode_encgrp_n0 : decode 0x00000004 = .error .nIsZero := by decide
theorem test_table_word : decodeTableWord 32 0x00020004 = some (.encgrp 2) := by decide
theorem test_assemble : assemble "DECGRP.final" = some 0x00000106 := by decide

/-- WellFormed's one check refuses ENCGRP with N = 0 (R83). -/
theorem test_wellFormed_refuses_n0 : (Instr.encgrp 0).wellFormed = false := by decide

/-! ## Commands -/

/-- Section 2.1: ARG[31:6] is ignored. -/
theorem test_symat_ignores_high : resErr (exec .symat (tArg 0xFFFFFFC0)) = some (0x41, 0) := by decide
/-- Section 2.1: end of the lower-case range. -/
theorem test_symat_z : resErr (exec .symat (tArg 0x33)) = some (0x7A, 0) := by decide
/-- Section 2.2: PAD. -/
theorem test_classify_pad : resErr (exec .classify (tArg 0x3D)) = some (0xC0, 0) := by decide
/-- Section 2.2: `9`. -/
theorem test_classify_9 : resErr (exec .classify (tArg 0x39)) = some (0x3D, 0) := by decide
/-- Section 2.3: symbol wins over padding. -/
theorem test_validate_priority :
    outErr 0 (exec .validate (tFrame [0x54, 0x3D, 0x20, 0x75])) = some (2, 0, []) := by decide
/-- Section 2.3: padding in a non-final group. -/
theorem test_validate_padding_inside :
    outErr 0 (exec .validate (tFrame [0x54, 0x51, 0x3D, 0x3D, 0x54, 0x57, 0x46, 0x75])) = some (3, 0, []) := by
  decide
/-- Section 2.4: ENCGRP n=3. -/
theorem test_encgrp_3 : resErr (exec (.encgrp 3) (tArg 0x009CFB14)) = some (0x63755046, 0) := by decide
/-- Section 2.4: bytes at positions N and above are ignored. -/
theorem test_encgrp_1 : resErr (exec (.encgrp 1) (tArg 0xFFFFFF4D)) = some (0x3D3D5154, 0) := by decide
/-- Section 2.4: four bytes, two groups. -/
theorem test_encode_4 : outErr 8 (exec .encode (tFrame [0x66, 0x6F, 0x6F, 0x62])) =
    some (0, 8, [0x5A, 0x6D, 0x39, 0x76, 0x59, 0x67, 0x3D, 0x3D]) := by decide
/-- Section 2.4: the encoding does not fit. -/
theorem test_encode_capacity : outErr 0 (exec .encode (tLen 10)) = some (4, 0, []) := by decide
/-- Section 2.5: SYM62, SYM63, SYM63, SYM63. -/
theorem test_decgrp_symbols : resErr (exec (.decgrp false) (tArg 0x5F5F5F2D)) = some (0x03FFFFFB, 0) := by decide
/-- Section 2.5: padding in a non-final group. -/
theorem test_decgrp_not_final : resErr (exec (.decgrp false) (tArg 0x3D3D5154)) = some (0, 3) := by decide
/-- Section 2.5: eight symbols, six bytes. -/
theorem test_decode_8 : outErr 6 (exec .decode (tFrame [0x5A, 0x6D, 0x39, 0x76, 0x59, 0x6D, 0x46, 0x79])) =
    some (0, 6, [0x66, 0x6F, 0x6F, 0x62, 0x61, 0x72]) := by decide
/-- Section 2.5: a length that is no multiple of 4. -/
theorem test_decode_length : outErr 0 (exec .decode (tFrame [0x54, 0x57, 0x46, 0x75, 0x54])) = some (1, 0, []) := by
  decide

/-! ## The shell (section 2.6) -/

/-- BADCMD changes nothing but STATUS. -/
theorem test_badcmd : step (tPending 0 [.block]) = .next { tPending 0 [] with status := ⟨false, true, 5, false⟩ } := rfl
/-- wr8 to STATUS: BusError. -/
theorem test_narrow_register_write :
    step (tTurns [.access (.write .w8 0x4 0xFF)]) = .next { tState with resp := some .busError } := rfl
/-- rd8 at IBUF+CAP: BusError. -/
theorem test_read_beyond_ibuf :
    step (tTurns [.access (.read .w8 0x1000C)]) = .next { tState with resp := some .busError } := rfl
/-- wr32 OBUF+0, 0x12345678: byte 1 is 0x56. -/
theorem test_little_endian :
    ((ended (step (tTurns [.access (.write .w32 0x20000 0x12345678)]))).map fun t => t.obuf 1) = some 0x56 := by
  decide
/-- P6: a write while busy is ignored and sets WBUSY. -/
theorem test_busy_write : ((ended (step (tPending 5 [.access (.write .w32 0x8 7)]))).map fun t =>
    (t.ilen, t.status.word)) = some (0, 0x101) := by decide
/-- wr32 STATUS with all ones while idle, DONE = 1, WBUSY = 1: both are cleared, ERR stays. -/
theorem test_status_w1c : ((ended (step { tTurns [.access (.write .w32 0x4 0xFFFFFFFF)] with
    status := ⟨false, true, 3, true⟩ })).map fun t => t.status.word) = some 0x30 := by decide
/-- The next step after a word is placed runs it. -/
theorem test_fetch_word : step (State.reset.withFetchWord 32 0x00010004) =
    exec (.encgrp 1) (State.reset.accept 0x00010004) := rfl

/-! ## Witnesses of the statements' hypotheses -/

/-- The one hypothesis of EncoderOutputIsValid, LengthAndPaddingLaws, NonCanonicalAccepted and
RoundTripSequences. -/
theorem witness_symbolsOk : tParams.SymbolsOk := by decide
theorem witness_admissible : tParams.Admissible := by decide
theorem witness_placesOk_least_cap : ({ tParams with cap := 4 } : Params).PlacesOk := by decide
theorem witness_placesOk_greatest_cap : ({ tParams with cap := 65536 } : Params).PlacesOk := by decide

/-- DecodeFollowsFields: one word for each clause. -/
theorem witness_DecodeFollowsFields :
    (0x00000014 / 16 % 16 ≠ 0) ∧ (0x00000206 / 512 % 128 ≠ 0) ∧ (0x00040004 / 262144 ≠ 0) ∧
    (∀ w ∈ [0x00000001, 0x00030004, 0x00000106, 0x00000007, 0x00000000, 0x0000000F, 0x00000105, 0x00010006, 0x00000004],
      w / 16 % 16 = 0 ∧ w / 512 % 128 = 0 ∧ w / 262144 = 0) ∧
    (0x00030004 % 16 = 4 ∧ 0x00030004 / 256 % 2 = 0 ∧ 0x00030004 / 65536 % 4 = 3) ∧
    (0x00000106 % 16 = 6 ∧ 0x00000106 / 65536 % 4 = 0) ∧
    (0x00000105 % 16 ≠ 6 ∧ 0x00000105 / 256 % 2 ≠ 0) ∧ (0x00010006 % 16 ≠ 4 ∧ 0x00010006 / 65536 % 4 ≠ 0) := by
  decide
theorem witness_TextStandsForWord : (Instr.encgrp 1).wellFormed = true := rfl
theorem witness_RomClosedForm : (25 : Index).toNat ≤ 25 ∧ 26 ≤ (26 : Index).toNat ∧ (51 : Index).toNat ≤ 51 ∧
    52 ≤ (52 : Index).toNat ∧ (61 : Index).toNat ≤ 61 ∧ (62 : Index).toNat = 62 ∧ (63 : Index).toNat = 63 := by decide
theorem witness_RomInjectiveWithoutPad : symbolAt tParams 5 = symbolAt tParams 5 := rfl
theorem witness_ClassifyTriple :
    symbolAt tParams 62 = tParams.sym62 ∧ symbolAt tParams 63 = tParams.sym63 ∧ symbolAt tParams 0 = 0x41 ∧
    (allIndexes.all fun i => symbolAt tParams i != 0x20) = true ∧ (0x20 : Byte) ≠ tParams.pad ∧
    (0x5A : Byte).toNat ≤ 0x5A ∧ 0x61 ≤ (0x61 : Byte).toNat ∧ (0x7A : Byte).toNat ≤ 0x7A ∧
    0x30 ≤ (0x30 : Byte).toNat ∧ (0x39 : Byte).toNat ≤ 0x39 := by decide
theorem witness_AlphabetLaws : indexOf tParams 0x5F ≠ notFound := by decide
theorem witness_ClassifyCompletes : (tArg 0x3D).params.SymbolsOk ∧
    (tArg 0x3D).arg.extractLsb' 0 8 = tParams.pad ∧
    ((tArg 0x20).arg.extractLsb' 0 8 ≠ tParams.pad ∧ isMember tParams 0x20 = false) ∧
    symbolAt tParams 63 = (tArg 0x5F).arg.extractLsb' 0 8 := by decide
theorem witness_TrailingRunIsLongest : (1 : Nat) < [0x54, 0x3D].length ∧ 2 - 1 ≤ 1 := by decide

/-- A text that is not valid: a PAD that is not trailing. -/
theorem not_valid : ¬ValidText tParams [0x54, 0x3D, 0x46, 0x75] := by
  rintro (h | ⟨body, g, h, hb, _, a, b, c, d, rfl, _, hm, _⟩)
  · cases h
  · have hl := congrArg List.length h
    simp only [List.length_append, List.length_cons, List.length_nil] at hl
    have : body = [] := List.length_eq_zero_iff.mp (by omega)
    subst this
    simp only [List.nil_append, List.cons.injEq] at h
    obtain ⟨-, rfl, -⟩ := h
    revert hm
    decide
theorem witness_ValidatorPriority :
    ([0x54] : List Byte).length % 4 ≠ 0 ∧ Outsider tParams 0x20 ∧
    (∀ c ∈ ([0x54, 0x3D, 0x46, 0x75] : List Byte), ¬Outsider tParams c) ∧
    ¬ValidText tParams [0x54, 0x3D, 0x46, 0x75] := ⟨by decide, by decide, by decide, not_valid⟩
theorem witness_ValidIffGroupsPass :
    ([0x54, 0x57, 0x46, 0x75] : List Byte).length % 4 = 0 ∧ 0 < ([0x54, 0x57, 0x46, 0x75] : List Byte).length ∧
    (true, ofLanes 0x54 0x57 0x46 0x75) ∈ decodeCalls [0x54, 0x57, 0x46, 0x75] := by decide

/-- The frame helper holds its frame. -/
theorem frameIs_4 : FrameIs (tFrame [0x54, 0x57, 0x46, 0x75]) [0x54, 0x57, 0x46, 0x75] := by
  unfold FrameIs
  decide
theorem frameIs_full : FrameIs (tFrame (List.replicate 12 0x41)) (List.replicate 12 0x41) := by
  unfold FrameIs
  decide
theorem frameIs_9 : FrameIs (tFrame (List.replicate 9 0)) (List.replicate 9 0) := by
  unfold FrameIs
  decide
theorem frameIs_empty : FrameIs (tFrame []) [] := by
  unfold FrameIs
  decide
theorem frameIs_bad : FrameIs (tFrame [0x54, 0x3D, 0x46, 0x75]) [0x54, 0x3D, 0x46, 0x75] := by
  unfold FrameIs
  decide

theorem frameIs_short : FrameIs (tFrame [0x54]) [0x54] := by
  unfold FrameIs
  decide
theorem frameIs_outsider : FrameIs (tFrame [0x54, 0x20, 0x46, 0x75]) [0x54, 0x20, 0x46, 0x75] := by
  unfold FrameIs
  decide

/-- The four kinds: frames the validator answers each of them on. -/
theorem witness_kinds : validate tParams [] = .ok ∧ validate tParams [0x54] = .invalidLength ∧
    validate tParams [0x54, 0x20, 0x46, 0x75] = .invalidSymbol ∧
    validate tParams [0x54, 0x3D, 0x46, 0x75] = .misplacedPadding := by decide

/-- ValidateCompletes: CAP + 1 and a full frame; for the kinds witness_kinds with frameIs_empty, frameIs_short,
frameIs_outsider and frameIs_bad, as for DecodeCompletes. -/
theorem witness_ValidateCompletes : (tLen 13).params.cap < (tLen 13).ilen.toNat ∧
    FrameIs (tFrame (List.replicate 12 0x41)) (List.replicate 12 0x41) ∧
    (List.replicate 12 (0x41 : Byte)).length ≤ tParams.cap := ⟨by decide, frameIs_full, by decide⟩
theorem witness_EncgrpCompletes :
    (∃ b0 b1 b2 : Nat, ∃ sym : Nat → Byte, b0 = (tArg 0x006E614D).arg.toNat % 256 ∧
      b1 = (tArg 0x006E614D).arg.toNat / 256 % 256 ∧ b2 = (tArg 0x006E614D).arg.toNat / 65536 % 256 ∧
      ∀ k, sym k = symbolAt (tArg 0x006E614D).params (BitVec.ofNat 6 k)) ∧
    (3 : BitVec 2) ≠ 0 ∧ (2 : BitVec 2) ≠ 0 ∧ (1 : BitVec 2) ≠ 0 :=
  ⟨⟨_, _, _, _, rfl, rfl, rfl, fun _ => rfl⟩, by decide⟩
theorem witness_EncodeConcatenatesGroups : ([1, 2, 3] : List Byte).length % 3 = 0 := by decide
theorem witness_EncodingStaysInAlphabet : (0x3D : Byte) ∈ encodeBytes tParams [0x4D] := by decide
theorem witness_EncodeCompletes : (tLen 13).params.PlacesOk ∧ (tLen 13).params.cap < (tLen 13).ilen.toNat ∧
    (tLen 10).params.cap < 4 * (((tLen 10).ilen.toNat + 2) / 3) ∧
    FrameIs (tFrame (List.replicate 9 0)) (List.replicate 9 0) ∧
    4 * (((List.replicate 9 (0 : Byte)).length + 2) / 3) ≤ tParams.cap ∧ FrameIs (tFrame []) [] :=
  ⟨by decide, by decide, by decide, frameIs_9, by decide, frameIs_empty⟩

/-- DecgrpCompletes: the symbols of ARG, and groups for each clause: an outsider; 4 PADs; a PAD that is
not trailing; PADs with FINAL = 0; 0, 1 and 2 PADs accepted. -/
theorem witness_DecgrpCompletes :
    (∃ (g : List Byte) (k : Nat) (v : Nat → Nat),
      g = [(tArg 0x75465754).arg.extractLsb' 0 8, (tArg 0x75465754).arg.extractLsb' 8 8,
        (tArg 0x75465754).arg.extractLsb' 16 8, (tArg 0x75465754).arg.extractLsb' 24 8] ∧
      k = trailingPads tParams g ∧ ∀ j, v j = (indexOf tParams (g.getD j 0)).toNat) ∧
    Outsider tParams 0x20 ∧
    (∀ c ∈ ([0x3D, 0x3D, 0x3D, 0x3D] : List Byte), ¬Outsider tParams c) ∧
    2 < trailingPads tParams [0x3D, 0x3D, 0x3D, 0x3D] ∧
    (trailingPads tParams [0x54, 0x3D, 0x46, 0x75] ≤ 2 ∧
      ∃ c ∈ ([0x54, 0x3D, 0x46, 0x75] : List Byte).take 4, isPad tParams c = true) ∧
    0 < trailingPads tParams [0x54, 0x57, 0x45, 0x3D] ∧
    trailingPads tParams [0x54, 0x51, 0x3D, 0x3D] = 2 ∧
    (∀ c ∈ ([0x54, 0x51, 0x3D, 0x3D] : List Byte).take 2, isPad tParams c = false) ∧
    trailingPads tParams [0x54, 0x57, 0x46, 0x75] = 0 :=
  ⟨⟨_, _, _, rfl, rfl, fun _ => rfl⟩, by decide, by decide, by decide, by decide, by decide, by decide, by decide, by decide⟩
theorem witness_DecodedLength : decodeText tParams [0x54, 0x51, 0x3D, 0x3D] = .ok [0x4D] := by decide
theorem witness_DecodeCompletes : (tLen 13).params.PlacesOk ∧ (tLen 13).params.cap < (tLen 13).ilen.toNat ∧
    FrameIs (tFrame [0x54, 0x57, 0x46, 0x75]) [0x54, 0x57, 0x46, 0x75] ∧
    validate tParams [0x54, 0x57, 0x46, 0x75] = .ok ∧
    FrameIs (tFrame [0x54, 0x3D, 0x46, 0x75]) [0x54, 0x3D, 0x46, 0x75] ∧
    validate tParams [0x54, 0x3D, 0x46, 0x75] ≠ .ok ∧ FrameIs (tFrame []) [] ∧
    FrameIs (tFrame (List.replicate 12 0x41)) (List.replicate 12 0x41) :=
  ⟨by decide, by decide, frameIs_4, by decide, frameIs_bad, by decide, frameIs_empty, frameIs_full⟩
theorem witness_DecgrpCallsCompose : decodeText (tArg 0).params [0x54, 0x51, 0x3D, 0x3D] = .ok [0x4D] := by decide

/-- RoundTripThroughBuffers: a frame of one byte, its ENCODE, and the copy. -/
theorem witness_RoundTripThroughBuffers : ∃ t : State, (tFrame [0x4D]).params.Admissible ∧
    FrameIs (tFrame [0x4D]) [0x4D] ∧ 4 * ((([0x4D] : List Byte).length + 2) / 3) ≤ tParams.cap ∧
    exec .encode (tFrame [0x4D]) = .next t ∧ (tFrame [0x54, 0x51, 0x3D, 0x3D]).params = tParams ∧
    (tFrame [0x54, 0x51, 0x3D, 0x3D]).ilen = t.olen ∧
    ∀ i, i < 4 → (tFrame [0x54, 0x51, 0x3D, 0x3D]).ibuf i = t.obuf i := by
  refine ⟨_, by decide, ?_, by decide, rfl, by decide, by decide, by decide⟩
  unfold FrameIs
  decide
theorem witness_PossibleCodes : (Instr.decgrp true).wellFormed = true ∧ (tPending 0 [.block]).status.busy = true ∧
    (tPending 0 [.block]).turns = .block :: [] ∧ legalWord (tPending 0 [.block]).cmd = false := by decide
theorem witness_ErrorsWriteNothingElse :
    (∃ t, exec .encode (tLen 10) = .next t ∧ t.status.err ≠ 0) ∧
    (∃ t, exec .decode (tLen 13) = .next t ∧ t.status.err ≠ 0) ∧
    (∃ t, exec .validate (tLen 13) = .next t ∧ t.status.err ≠ 0) ∧
    (∃ t, exec (.decgrp true) (tArg 0x20202020) = .next t ∧ t.status.err ≠ 0) ∧
    (Instr.decgrp true).wellFormed = true ∧
    (tPending 0x105 []).status.busy = true ∧ legalWord (tPending 0x105 []).cmd = false :=
  ⟨⟨_, rfl, by decide⟩, ⟨_, rfl, by decide⟩, ⟨_, rfl, by decide⟩, ⟨_, rfl, by decide⟩, rfl, rfl, by decide⟩
theorem witness_UnitCommandFrame : isUnit (.decgrp true) = true ∧ ∃ t, exec (.decgrp true) tState = .next t :=
  ⟨rfl, _, rfl⟩
theorem witness_FrameCommandFrame : isUnit .encode = false ∧ isUnit .validate = false ∧
    (∃ t, exec .encode (tLen 10) = .next t ∧ t.status.err ≠ 0) ∧ tState.params.PlacesOk ∧
    (∃ t, exec .validate tState = .next t) :=
  ⟨rfl, rfl, ⟨_, rfl, by decide⟩, by decide, _, rfl⟩
theorem witness_ResultsDependOnInputsOnly :
    (tFrame [0x4D]).ilen = ({ tFrame [0x4D] with res := 7, olen := 9 } : State).ilen ∧
    (∃ t, exec .encode (tFrame [0x4D]) = .next t ∧ 3 < t.olen.toNat) ∧
    (∃ v, exec .encode ({ tFrame [0x4D] with res := 7, olen := 9 } : State) = .next v) ∧
    ∀ k, k < 1 → ({ tFrame [0x4D] with res := 7, olen := 9 } : State).ibuf k = (tFrame [0x4D]).ibuf k :=
  ⟨rfl, ⟨_, rfl, by decide⟩, ⟨_, rfl⟩, by decide⟩
/-- ResultsDependOnInputsOnly with ILEN = CAP + 1: the states need not agree on IBUF. -/
theorem witness_ResultsDependOnInputsOnly_capacity :
    (tLen 13).ilen = ({ tFrame [0x4D] with ilen := 13 } : State).ilen ∧
    ¬(tLen 13).ilen.toNat ≤ (tLen 13).params.cap ∧ (∃ t, exec .encode (tLen 13) = .next t) ∧
    ∃ v, exec .encode ({ tFrame [0x4D] with ilen := 13 } : State) = .next v :=
  ⟨rfl, by decide, ⟨_, rfl⟩, _, rfl⟩
theorem witness_StepRunsPendingCommand : (tPending 1 [.block]).status.busy = true ∧
    decode (tPending 1 [.block]).cmd = .ok .symat ∧ (tPending 1 [.block]).turns = .block :: [] ∧
    (tPending 1 []).turns = [] := by decide
theorem witness_IllegalWordIsBadCommand : (tPending 0x105 [.block]).turns = .block :: [] ∧
    (tPending 0x105 []).turns = [] ∧ (tPending 0x105 []).status.busy = true ∧
    (tPending 0x105 [.block]).status.busy = true ∧
    (tPending 0x105 [.block]).cmd ∉ ([0x00000001, 0x00000002, 0x00000003, 0x00010004, 0x00020004,
      0x00030004, 0x00000005, 0x00000006, 0x00000106, 0x00000007] : List Word) := by decide
theorem witness_IdleBlockDoesNothing : tState.status.busy = false ∧ tState.turns = [] ∧
    (tTurns [.block]).turns = .block :: [] := by decide
theorem witness_CommandWriteIsAccepted : (tTurns [.access (.write .w32 0x00000 5)]).status.busy = false ∧
    (tTurns [.access (.write .w32 0x00000 5)]).turns = .access (.write .w32 0x00000 5) :: [] := by decide

/-- BusyWritesAreIgnored, BusyReads, BufferAccessIsLittleEndian, BusErrorExactly: the last places inside
each buffer for each width, and the places next to them. -/
theorem witness_places_inside : BufferAccess 12 .w8 0x1000B ∧ BufferAccess 12 .w16 0x1000A ∧
    BufferAccess 12 .w32 0x20008 ∧ BufferAccess 12 .w32 0x10000 ∧ BufferAccess 65536 .w8 0x2FFFF := by decide
theorem witness_places_registers : RegisterAccess .w32 0x00018 ∧ RegisterAccess .w32 0x00000 ∧
    ¬RegisterAccess .w32 0x0001C ∧ ¬RegisterAccess .w8 0x00004 ∧ ¬RegisterAccess .w32 0x00002 := by decide
theorem witness_places_outside : ¬BufferAccess 12 .w32 0x0001C ∧ ¬BufferAccess 12 .w8 0x1000C ∧
    ¬BufferAccess 12 .w32 0x10002 ∧ ¬BufferAccess 12 .w32 0x2000C ∧ ¬BufferAccess 65536 .w8 0x30000 := by decide
theorem witness_BusyWritesAreIgnored : (tPending 5 []).status.busy = true ∧ (tPending 5 []).params.PlacesOk := by
  decide
theorem witness_BusyReads : (tPending 5 []).status.busy = true ∧ Reg.status ≠ .olen ∧ Reg.status ≠ .res ∧
    (BufferAccess (tPending 5 []).params.cap .w8 0x1000B ∧ (0x1000B : Offset).toNat < 0x20000) ∧
    (BufferAccess (tPending 5 []).params.cap .w8 0x20000 ∧ 0x20000 ≤ (0x20000 : Offset).toNat) := by decide
theorem witness_IdleRegisterAccesses : tState.status.busy = false ∧ ((0x00018 : Offset), tState.res) ∈
    ([(0x00000, tState.cmd), (0x00018, tState.res)] : List (Offset × Word)) := by decide
theorem witness_BusErrorExactly : tState.params.PlacesOk ∧
    ¬RegisterAccess (Access.read .w8 0x1000C).place.1 (Access.read .w8 0x1000C).place.2 ∧
    ¬BufferAccess tState.params.cap (Access.read .w8 0x1000C).place.1 (Access.read .w8 0x1000C).place.2 ∧
    BufferAccess tState.params.cap (Access.write .w8 0x1000B 1).place.1 (Access.write .w8 0x1000B 1).place.2 := by
  decide
theorem witness_ReadsHaveNoSideEffect : ∃ t u, step { tState with turns := .access (.read .w32 0x4) :: [] } = .next t ∧
    step { t with turns := .access (.read .w32 0x4) :: [] } = .next u ∧ tState.status.busy = false :=
  ⟨_, _, rfl, rfl, rfl⟩
theorem witness_BufferAccessIsLittleEndian : tState.status.busy = false ∧ tState.params.PlacesOk ∧
    BufferAccess tState.params.cap .w16 0x1000A ∧ 1 < Width.w16.bytes ∧ Width.w16.bytes ≤ 2 := by decide
theorem witness_WindowStandsAtBase : tParams.PlacesOk ∧ windowOffset tParams 0xBFFFF = some 0x3FFFF ∧
    tParams.base + 0x40000 ≤ 0xC0000 ∧ 0x7FFFF < tParams.base := by decide
theorem witness_StatusPersists :
    (∃ t, step { tTurns [.access (.write .w32 0x4 0x100)] with status := ⟨false, true, 3, true⟩ } = .next t ∧
      t.status.busy = false) ∧
    (∀ r, (tTurns [.access (.write .w32 0x4 0x100)]).turns ≠ .reset :: r) :=
  ⟨⟨_, rfl, rfl⟩, by simp [tTurns]⟩
theorem witness_AcceptedCommandCompletes : (tPending 5 [.access (.read .w32 4)]).status.busy = true ∧
    ordinaryTurns (tPending 5 [.access (.read .w32 4)]).turns = true := by decide
theorem witness_StepsNeverStop : (∀ a r, tState.turns ≠ .accessInReset a :: r) ∧
    (tTurns [.accessInReset (.read .w32 4)]).turns = .accessInReset (.read .w32 4) :: [] :=
  ⟨by simp [tState, State.reset], rfl⟩
theorem witness_ConstantsNeverChange : ∃ t, step tState = .next t := ⟨_, rfl⟩
theorem witness_ResetEvent : (tTurns [.reset]).turns = .reset :: [] := rfl

/-- A state with written bytes and a command pending meets the invariant. -/
theorem witness_InvariantKept : State.Inv { tFrame [0x4D, 0x61] with cmd := 5, status := ⟨true, false, 0, true⟩ } ∧
    ∃ t, step { tFrame [0x4D, 0x61] with cmd := 5, status := ⟨true, false, 0, true⟩ } = .next t :=
  ⟨⟨by decide, by decide, by decide, by decide, by decide, by decide⟩, _, rfl⟩

/-- A host program of two lines. -/
def tHost (line : Nat) : HostSys :=
  { block := tState, prog := [.wr .w32 (.reg .arg) (.const 5), .rd .w8 (.raw (.const 0x1000C)) (.var 1), .rd .w32 (.reg .arg) (.var 0)],
    line := line, vars := [], sched := [none] }
theorem witness_HostLinesAreAccesses : (tHost 0).sched = none :: [] ∧
    (Place.reg .arg).offset (tHost 0).block.params (tHost 0).vars = some 0x14 ∧
    (tHost 0).prog[(tHost 0).line]? = some (.wr .w32 (.reg .arg) (.const 5)) ∧
    (tHost 2).prog[(tHost 2).line]? = some (.rd .w32 (.reg .arg) (.var 0)) ∧
    (∃ b, step { tState with turns := .access (.read .w32 0x14) :: [] } = .next b ∧ b.resp = some (.data 0)) ∧
    (Place.raw (.const 0x1000C)).offset (tHost 1).block.params (tHost 1).vars = some 0x1000C ∧
    (tHost 1).prog[(tHost 1).line]? = some (.rd .w8 (.raw (.const 0x1000C)) (.var 1)) ∧
    ∃ b, step { tState with turns := .access (.read .w8 0x1000C) :: [] } = .next b ∧ b.resp = some .busError :=
  ⟨by decide, by decide, by decide, by decide, ⟨_, rfl, by decide⟩, by decide, by decide, _, rfl, by decide⟩

/-- A host about to run line `line` of a program. -/
def tProg (line : Nat) (prog : List HostStmt) : HostSys :=
  { block := tState, prog := prog, line := line, vars := [], sched := [none] }

/-- HostLinesAreAccesses: a read into an array element, the refusal beyond the window, and the lines that make
no access. -/
theorem witness_HostLinesAreAccesses_other :
    (tProg 0 [.rd .w32 (.reg .arg) (.elem 3 (.const 1))]).prog[0]? = some (.rd .w32 (.reg .arg) (.elem 3 (.const 1))) ∧
    (Place.raw (.const 0x40000)).offset tParams [] = none ∧
    (Place.raw (.const 0x3FFFF)).offset tParams [] = some 0x3FFFF ∧
    (tProg 0 [.assign (.var 0) (.const 5)]).prog[0]? = some (.assign (.var 0) (.const 5)) ∧
    (tProg 0 [.assign (.elem 0 (.const 2)) .pad]).prog[0]? = some (.assign (.elem 0 (.const 2)) .pad) ∧
    (tProg 1 [.label 7, .ifGoto (.const 1) 7, .goto 7]).prog[1]? = some (.ifGoto (.const 1) 7) ∧
    (tProg 2 [.label 7, .ifGoto (.const 1) 7, .goto 7]).prog[2]? = some (.goto 7) ∧
    LabelStands [.label 7, .ifGoto (.const 1) 7, .goto 7] 7 0 := by
  unfold LabelStands
  decide

/-- HostLinesAreAccesses, the expressions: a shift by 31, a division by 1, the field of bit 31, and an assigned
variable and element; another element of the same array, the variable of the array's name, and another name. -/
theorem witness_HostLinesAreAccesses_values : ((HostExpr.const 31).eval tParams []).toNat < 32 ∧
    ((HostExpr.const 1).eval tParams []).toNat ≠ 0 ∧ (31 : Nat) ≤ 31 ∧ (31 : Nat) < 32 ∧
    (some ((HostExpr.const 2).eval tParams [(0, some 2, 9)]) : Option Word) = some 2 ∧
    (some 2 : Option Word) ≠ some ((HostExpr.const 3).eval tParams [(0, some 2, 9)]) ∧
    (some 2 : Option Word) ≠ none ∧ (1 : Nat) ≠ 0 := by decide

/-- The same under the eager schedule. -/
def tEager (prog : List HostStmt) : HostSys :=
  { block := tState, prog := prog, line := 0, vars := [], sched := [] }
theorem witness_PseudoInstructionsRun :
    RunsLines (tEager (pseudoIssue .encode)) (pseudoIssue .encode) ∧
    RunsLines (tEager (pseudoWait 7 0)) (pseudoWait 7 0) ∧
    RunsLines (tEager (pseudoRun .encode 7 0)) (pseudoRun .encode 7 0) ∧
    RunsLines (tEager pseudoAck) pseudoAck ∧ RunsLines (tEager pseudoClrw) pseudoClrw ∧
    RunsLines (tEager (pseudoPut [.const 1, .pad])) (pseudoPut [.const 1, .pad]) ∧
    RunsLines (tEager (pseudoFill .pad 12)) (pseudoFill .pad 12) ∧ tState.params.PlacesOk ∧ 12 ≤ tState.params.cap ∧
    Instr.encode.wellFormed = true := by
  unfold RunsLines
  decide

/-- PseudoInstructionsRun: `wait` on a busy block with the host to move. -/
theorem witness_PseudoInstructionsRun_busy : (tPending 5 []).status.busy = true ∧
    pseudoWait 7 0 <+: (pseudoWait 7 0).drop 0 ∧ LabelStands (pseudoWait 7 0) 7 0 := by
  unfold LabelStands
  decide

/-- Log 9: the term ENCGRP with N = 0 runs as its word does, BADCMD. -/
theorem test_encgrp_zero_term : resErr (exec (.encgrp 0) (tArg 5)) = some (0, 5) := by decide

/-- R91: a host program's read line assigns the register it read. -/
theorem test_host_read_line : (match (tHost 2).step with
    | .next g => g.vars
    | _ => []) = [(0, none, 0)] := by decide

/-- R10, R11: bits 7:4 of 0x12345678, and `7 / 2` truncates. -/
theorem test_host_expressions : hostField 0x12345678 7 4 = 7 ∧ HostOp.div.eval 7 2 = 3 := by decide

end Sys2Proof.Tests
end

section
/-! PROOFS. Family 00_scope: how a frame command ends, said once; the invariant; a command's result as a
function of its inputs. -/

namespace Sys2Proof.Machine

/-! ## How ENCODE and DECODE end -/

/-- The one way ENCODE and DECODE end (R145, R166): the output in OBUF and its length in OLEN, or OLEN <- 0
with the code. -/
def State.finishFrame (s : State) : Except ErrCode (List Byte) → State
  | .ok y => ((s.writeObuf y).setOlen (BitVec.ofNat 32 y.length)).complete .ok
  | .error c => (s.setOlen 0).complete c

/-- What ENCODE computes (R145). -/
def encodeOutcome (s : State) : Except ErrCode (List Byte) :=
  if s.params.cap < s.ilen.toNat ∨ s.params.cap < encodedLength s.ilen.toNat then .error .capacity
  else .ok (encodeBytes s.params (s.frame s.ilen.toNat))

/-- What DECODE computes: capacity comes before the text (R166, R183). -/
def decodeOutcome (s : State) : Except ErrCode (List Byte) :=
  if s.params.cap < s.ilen.toNat then .error .capacity
  else decodeText s.params (s.frame s.ilen.toNat)

theorem encodeFrame_eq_finishFrame (s : State) : encodeFrame s = s.finishFrame (encodeOutcome s) := by
  unfold encodeOutcome
  rcases encodeFrame_cases s with ⟨hbig, e⟩ | ⟨hn, hm, e⟩
  · rw [if_pos hbig, e]; rfl
  · rw [if_neg (by omega), e]
    simp [State.finishFrame, encodeBytes_length]

/-- The validator's answer decides a decoding (R161). -/
theorem decodeText_eq (p : Params) (t : List Byte) :
    decodeText p t = if validate p t = .ok then .ok (decodeGroups p (trailingPads p t) t)
      else .error (validate p t) := by
  unfold decodeText
  cases validate p t <;> rfl

theorem decodeFrame_eq_finishFrame (s : State) : decodeFrame s = s.finishFrame (decodeOutcome s) := by
  unfold decodeOutcome
  rcases textCode_cases s with ⟨hbig, hc⟩ | ⟨hfit, hc⟩
  · rcases decodeFrame_cases s with ⟨hok, -⟩ | ⟨-, e⟩
    · cases hc.symm.trans hok
    · rw [if_pos hbig, e, hc]; rfl
  · rw [if_neg (by omega), decodeText_eq, ← hc]
    rcases decodeFrame_cases s with ⟨hok, e⟩ | ⟨herr, e⟩
    · rw [if_pos hok, e]; rfl
    · rw [if_neg herr, e]; rfl

/-- ENCODE's output fits in OBUF (R145). -/
theorem encodeOutcome_length_le {s : State} {y : List Byte} (h : encodeOutcome s = .ok y) :
    y.length ≤ s.params.cap := by
  unfold encodeOutcome at h
  split at h
  · cases h
  · cases h
    rw [encodeBytes_length, frame_length]
    omega

/-- DECODE's output fits in OBUF: it is no longer than its text (R166). -/
theorem decodeOutcome_length_le {s : State} {y : List Byte} (h : decodeOutcome s = .ok y) :
    y.length ≤ s.params.cap := by
  unfold decodeOutcome at h
  split at h
  · cases h
  · rw [decodeText_eq] at h
    split at h
    · cases h
      have := decodeGroups_length_le s.params (trailingPads s.params (s.frame s.ilen.toNat))
        (s.frame s.ilen.toNat)
      rw [frame_length] at this
      omega
    · cases h

/-! ## The invariant, operation by operation -/

theorem ErrCode.bits_le_five (c : ErrCode) : c.bits ≤ 5 := by cases c <;> decide

/-- The invariant speaks of the parameters, the memory, STATUS and OLEN alone. -/
theorem State.Inv.congr {s t : State} (h : s.Inv) (hp : t.params = s.params) (hm : t.mem = s.mem)
    (hs : t.status = s.status) (ho : t.olen = s.olen) : t.Inv where
  admissible := hp ▸ h.admissible
  memWf := hm ▸ h.memWf
  memInside := hm ▸ hp ▸ h.memInside
  errLegal := hs ▸ h.errLegal
  busyClean := hs ▸ h.busyClean
  olenFits := ho ▸ hp ▸ h.olenFits

theorem State.Inv.setRes {s : State} (h : s.Inv) (v : Word) : (s.setRes v).Inv := h.congr rfl rfl rfl rfl

theorem State.Inv.setOlen {s : State} (h : s.Inv) {v : Word} (hv : v.toNat ≤ s.params.cap) :
    (s.setOlen v).Inv := { h with olenFits := hv }

theorem State.Inv.complete {s : State} (h : s.Inv) (c : ErrCode) : (s.complete c).Inv :=
  { h with errLegal := c.bits_le_five, busyClean := by simp }

theorem State.Inv.accept {s : State} (h : s.Inv) (w : Word) : (s.accept w).Inv :=
  { h with errLegal := by simp, busyClean := by simp }

theorem State.Inv.ignoreBusyWrite {s : State} (h : s.Inv) : s.ignoreBusyWrite.Inv := { h with }

/-- An acknowledgement only clears DONE and WBUSY (R28, R186). -/
theorem State.Inv.writeStatus {s : State} (h : s.Inv) (v : Word) : (s.writeStatus v).Inv where
  __ := h
  busyClean hb := by
    obtain ⟨hdone, herr⟩ := h.busyClean hb
    simp [hdone, herr]

theorem State.Inv.writeBytes {s : State} (h : s.Inv) {a : Nat} {bs : List Byte}
    (hin : ∀ x, a ≤ x → x < a + bs.length → inBuffers s.params.cap x) : (s.writeBytes a bs).Inv where
  __ := h
  memWf := Memory.setList_wf a bs h.memWf
  memInside c hc := by
    rcases Memory.mem_setList hc with ⟨hlo, hhi⟩ | hold
    · exact hin c.1 hlo hhi
    · exact h.memInside c hold

/-- Bytes written within IBUF stay inside the buffers. -/
theorem State.Inv.writeBytes_ibuf {s : State} (h : s.Inv) {a : Nat} {bs : List Byte}
    (hfit : a + bs.length ≤ s.params.cap) : (s.writeBytes (ibufBase + a) bs).Inv :=
  h.writeBytes fun x hlo hhi => .inl (by omega)

/-- Bytes written within OBUF stay inside the buffers. -/
theorem State.Inv.writeBytes_obuf {s : State} (h : s.Inv) {a : Nat} {bs : List Byte}
    (hfit : a + bs.length ≤ s.params.cap) : (s.writeBytes (obufBase + a) bs).Inv :=
  h.writeBytes fun x hlo hhi => .inr (by omega)

theorem State.Inv.platformReset {s : State} (h : s.Inv) : s.platformReset.Inv where
  admissible := h.admissible
  memWf := List.Pairwise.nil
  memInside := by simp
  errLegal := by simp [Status.reset]
  busyClean := by simp [Status.reset]
  olenFits := Nat.zero_le _

/-- The end of ENCODE and DECODE: OLEN is the length of an output that fits, or 0. -/
theorem State.Inv.finishFrame {s : State} (h : s.Inv) {r : Except ErrCode (List Byte)}
    (hfit : ∀ y, r = .ok y → y.length ≤ s.params.cap) : (s.finishFrame r).Inv := by
  cases r with
  | error c => exact (h.setOlen (Nat.zero_le _)).complete c
  | ok y =>
    have hy : y.length ≤ s.params.cap := hfit y rfl
    have hw : (s.writeObuf y).Inv := h.writeBytes_obuf (a := 0) (by omega)
    refine (hw.setOlen ?_).complete .ok
    calc (BitVec.ofNat 32 y.length).toNat ≤ y.length := by simpa using Nat.mod_le _ _
      _ ≤ s.params.cap := hy

/-! ## The invariant, move by move -/

/-- Every command keeps the invariant. -/
theorem exec_inv {i : Instr} {s t : State} (h : s.Inv) (he : exec i s = .next t) : t.Inv := by
  cases i with
  | symat => cases he; exact (h.setRes _).complete _
  | classify => cases he; exact (h.setRes _).complete _
  | validate => cases he; exact h.complete _
  | encgrp n =>
    simp only [exec, execEncgrp] at he
    split at he
    · cases he; exact h.complete _
    · cases he; exact (h.setRes _).complete _
  | encode =>
    cases he
    rw [encodeFrame_eq_finishFrame]
    exact h.finishFrame fun _ => encodeOutcome_length_le
  | decgrp final => cases he; exact (h.setRes _).complete _
  | decode =>
    cases he
    rw [decodeFrame_eq_finishFrame]
    exact h.finishFrame fun _ => decodeOutcome_length_le

theorem blockStep_inv {s t : State} (h : s.Inv) (hb : blockStep s = .next t) : t.Inv := by
  rcases blockStep_cases s with ⟨-, e⟩ | ⟨i, -, -, e⟩ | ⟨-, -, -, e⟩ <;> rw [e] at hb
  · cases hb; exact h
  · exact exec_inv h hb
  · cases hb; exact h.complete .badCmd

theorem hostRead_inv {s : State} (h : s.Inv) (w : Width) (off : Offset) : (hostRead w off s).Inv := by
  rcases hostRead_cases w off s with ⟨-, e⟩ | ⟨_, -, -, -, e⟩ | ⟨_, -, -, e⟩ <;> rw [e] <;>
    exact h.congr rfl rfl rfl rfl

/-- The bytes a buffer access stores lie within the buffer (R56). -/
theorem storedBytes_fit {cap : Nat} {w : Width} {a : Nat} (hok : bufferOk cap w a = true) (v : Word) :
    a + (storedBytes w v).length ≤ cap := by
  simp only [bufferOk, Bool.and_eq_true, decide_eq_true_eq] at hok
  rw [storedBytes_length]
  exact hok.2

theorem writeTarget_inv {s : State} (h : s.Inv) {w : Width} {off : Offset} {t : Target}
    (hr : resolve s.params.cap w off = some t) (v : Word) : (writeTarget w v s t).Inv := by
  rcases writeTarget_cases w v s t with ⟨-, e⟩ | e | ⟨-, e⟩ | ⟨-, -, e⟩ | ⟨-, -, e⟩ | ⟨-, -, e⟩ |
    ⟨a, ht, -, e⟩ | ⟨a, ht, -, e⟩ <;> rw [e]
  · exact h.ignoreBusyWrite
  · exact h
  · exact h.writeStatus v
  · exact h.accept v
  · exact h.congr rfl rfl rfl rfl
  · exact h.congr rfl rfl rfl rfl
  · rcases resolve_cases hr with ⟨_, ht', -⟩ | ⟨a', ht', -, hok⟩ | ⟨_, ht', -⟩ <;> cases ht.symm.trans ht'
    exact h.writeBytes_ibuf (storedBytes_fit hok v)
  · rcases resolve_cases hr with ⟨_, ht', -⟩ | ⟨_, ht', -⟩ | ⟨a', ht', -, hok⟩ <;> cases ht.symm.trans ht'
    exact h.writeBytes_obuf (storedBytes_fit hok v)

theorem hostWrite_inv {s : State} (h : s.Inv) (w : Width) (off : Offset) (v : Word) :
    (hostWrite w off v s).Inv := by
  rcases hostWrite_cases w off v s with ⟨-, e⟩ | ⟨t, hr, e⟩ <;> rw [e]
  · exact h.congr rfl rfl rfl rfl
  · exact (writeTarget_inv h hr v).congr rfl rfl rfl rfl

theorem hostAccess_inv {s : State} (h : s.Inv) (a : Access) : (hostAccess a s).Inv := by
  cases a with
  | read w off => exact hostRead_inv h w off
  | write w off v => exact hostWrite_inv h w off v

/-- Settles O58: each move a step can make keeps the invariant. -/
theorem invariantKept : Obligations.InvariantKept := by
  intro s t h hs
  have hturns (r : List Turn) : State.Inv { s with turns := r } := h.congr rfl rfl rfl rfl
  rcases step_cases s with ⟨-, e⟩ | ⟨r, -, e⟩ | ⟨a, r, -, e⟩ | ⟨r, -, e⟩ | ⟨a, r, -, e⟩ <;> rw [e] at hs
  · exact blockStep_inv h hs
  · exact blockStep_inv (hturns r) hs
  · cases hs; exact hostAccess_inv (hturns r) a
  · cases hs; exact (hturns r).platformReset
  · cases hs

/-- Settles O57: the block's parameters are admissible, memory is empty, STATUS and OLEN are 0. -/
theorem invariantAtReset : Obligations.InvariantAtReset where
  admissible := Config.theParams.property
  memWf := reset_mem_wf
  memInside := by simp [State.reset]
  errLegal := by decide
  busyClean := by decide
  olenFits := Nat.zero_le _

/-! ## A command's result as a function of its inputs -/

/-- Two states agree on what a command reads (R14, R38): the parameters, ILEN, ARG, and the frame where it
fits. -/
structure SameInputs (s u : State) : Prop where
  params : u.params = s.params
  ilen   : u.ilen = s.ilen
  arg    : u.arg = s.arg
  frame  : s.ilen.toNat ≤ s.params.cap → u.frame s.ilen.toNat = s.frame s.ilen.toNat

theorem frame_congr {s u : State} {n : Nat} (h : ∀ k, k < n → u.ibuf k = s.ibuf k) :
    u.frame n = s.frame n :=
  List.map_congr_left fun k hk => h k (List.mem_range.mp hk)

section
variable {s u : State}

/-- What is computed from the frame under a check that it fits is the same in both states. -/
theorem SameInputs.guarded_eq {α : Type} (h : SameInputs s u) {tooBig : Prop} [Decidable tooBig]
    (hfit : ¬tooBig → s.ilen.toNat ≤ s.params.cap) (a : α) (f : List Byte → α) :
    (if tooBig then a else f (u.frame s.ilen.toNat)) = if tooBig then a else f (s.frame s.ilen.toNat) := by
  split
  · rfl
  · next hs => rw [h.frame (hfit hs)]

theorem SameInputs.textCode_eq (h : SameInputs s u) : textCode u = textCode s := by
  unfold textCode
  rw [h.params, h.ilen]
  exact h.guarded_eq (by omega) _ (validate s.params)

theorem SameInputs.encodeOutcome_eq (h : SameInputs s u) : encodeOutcome u = encodeOutcome s := by
  unfold encodeOutcome
  rw [h.params, h.ilen]
  exact h.guarded_eq (by omega) _ (fun x => Except.ok (encodeBytes s.params x))

theorem SameInputs.decodeOutcome_eq (h : SameInputs s u) : decodeOutcome u = decodeOutcome s := by
  unfold decodeOutcome
  rw [h.params, h.ilen]
  exact h.guarded_eq (by omega) _ (decodeText s.params)

end

/-- An output byte reads back from OBUF (R52, R61). -/
theorem writeObuf_obuf (s : State) {y : List Byte} {j : Nat} (hj : j < y.length) :
    (s.writeObuf y).obuf j = y.getD j 0 := by
  unfold State.obuf State.writeObuf
  rw [readByte_writeBytes, if_pos (by omega), Nat.add_sub_cancel_left]

/-- ERR, OLEN and the output bytes of ENCODE and DECODE depend on what they computed alone. -/
theorem finishFrame_agree (s u : State) (r : Except ErrCode (List Byte)) :
    (u.finishFrame r).status.err = (s.finishFrame r).status.err ∧
    (u.finishFrame r).olen = (s.finishFrame r).olen ∧
    ∀ j, j < (s.finishFrame r).olen.toNat → (u.finishFrame r).obuf j = (s.finishFrame r).obuf j := by
  cases r with
  | error c =>
    refine ⟨rfl, rfl, fun j hj => ?_⟩
    simp [State.finishFrame] at hj
  | ok y =>
    refine ⟨rfl, rfl, fun j hj => ?_⟩
    have hlt : j < y.length := by
      refine lt_of_lt_of_le hj ?_
      simpa [State.finishFrame] using Nat.mod_le y.length _
    calc (u.finishFrame (.ok y)).obuf j = y.getD j 0 := writeObuf_obuf u hlt
      _ = (s.finishFrame (.ok y)).obuf j := (writeObuf_obuf s hlt).symm

/-- A unit command writes RES and completes, both by the parameters and ARG alone (R14). -/
theorem exec_unit {i : Instr} (hw : i.wellFormed = true) (hu : isUnit i = true) :
    ∃ (r : Params → Word → Word) (c : Params → Word → ErrCode), ∀ s : State,
      exec i s = .next ((s.setRes (r s.params s.arg)).complete (c s.params s.arg)) := by
  cases i with
  | symat => exact ⟨fun p a => (symbolAt p (argIndex a)).setWidth 32, fun _ _ => .ok, fun _ => rfl⟩
  | classify =>
    exact ⟨fun p a => classifyResult (classify p (lane a 0)).idx (classify p (lane a 0)).nf
      (classify p (lane a 0)).pad, fun _ _ => .ok, fun _ => rfl⟩
  | encgrp n =>
    have hn : n ≠ 0 := by simpa [Instr.wellFormed] using hw
    exact ⟨fun p a => encGroupResult (encGroupOfArg p n a), fun _ _ => .ok, fun _ => if_neg hn⟩
  | decgrp final =>
    exact ⟨fun p a => groupResult p final (lanes a), fun p a => groupCode p final (lanes a), fun _ => rfl⟩
  | validate => cases hu
  | encode => cases hu
  | decode => cases hu

/-- A unit command gives the same code and RES on the same inputs. -/
theorem SameInputs.exec_unit_agree {i : Instr} {s u t v : State} (h : SameInputs s u)
    (hw : i.wellFormed = true) (hu : isUnit i = true) (ht : exec i s = .next t) (hv : exec i u = .next v) :
    v.status.err = t.status.err ∧ v.res = t.res := by
  obtain ⟨r, c, he⟩ := exec_unit hw hu
  rw [he] at ht hv
  cases ht
  cases hv
  simp [h.params, h.arg]

/-- Settles O37: unit commands by their inputs in ARG, frame commands by the frame they compute on. -/
theorem resultsDependOnInputsOnly : Obligations.ResultsDependOnInputsOnly := by
  intro i s u t v hw hp hl ha hf ht hv
  have h : SameInputs s u := ⟨hp, hl, ha, fun hfit => frame_congr (hf hfit)⟩
  cases hu : isUnit i with
  | true =>
    obtain ⟨herr, hres⟩ := h.exec_unit_agree hw hu ht hv
    exact ⟨herr, fun _ => hres, by rintro (rfl | rfl) <;> cases hu⟩
  | false =>
    cases i with
    | validate =>
      cases ht
      cases hv
      exact ⟨by simp [h.textCode_eq], nofun, nofun⟩
    | encode =>
      cases ht
      cases hv
      rw [encodeFrame_eq_finishFrame, encodeFrame_eq_finishFrame, h.encodeOutcome_eq]
      obtain ⟨herr, hout⟩ := finishFrame_agree s u (encodeOutcome s)
      exact ⟨herr, nofun, fun _ => hout⟩
    | decode =>
      cases ht
      cases hv
      rw [decodeFrame_eq_finishFrame, decodeFrame_eq_finishFrame, h.decodeOutcome_eq]
      obtain ⟨herr, hout⟩ := finishFrame_agree s u (decodeOutcome s)
      exact ⟨herr, nofun, fun _ => hout⟩
    | symat | classify | encgrp n | decgrp final => cases hu

end Sys2Proof.Machine
end

section
/-! PROOFS. Family 10_state: the ROM's codes; STATUS as a word; a host's register accesses and the idle block;
the frames of the commands; the constants. -/

namespace Sys2Proof.Machine

/-! ## The ROM, range by range (R22) -/

theorem symbolAt_toNat_upper (p : Params) {i : Index} (h : i.toNat ≤ 25) :
    (symbolAt p i).toNat = 0x41 + i.toNat := by
  rw [symbolAt, romEntry, if_pos (by bv_omega)]
  bv_omega

theorem symbolAt_toNat_lower (p : Params) {i : Index} (hlo : 26 ≤ i.toNat) (hhi : i.toNat ≤ 51) :
    (symbolAt p i).toNat = 0x61 + (i.toNat - 26) := by
  rw [symbolAt, romEntry, if_neg (by bv_omega), if_pos (by bv_omega)]
  bv_omega

theorem symbolAt_toNat_digit (p : Params) {i : Index} (hlo : 52 ≤ i.toNat) (hhi : i.toNat ≤ 61) :
    (symbolAt p i).toNat = 0x30 + (i.toNat - 52) := by
  rw [symbolAt, romEntry, if_neg (by bv_omega), if_neg (by bv_omega), if_pos (by bv_omega)]
  bv_omega

theorem symbolAt_62 (p : Params) : symbolAt p 62 = p.sym62 := rfl

theorem symbolAt_63 (p : Params) : symbolAt p 63 = p.sym63 := rfl

/-- Settles O6, range by range. -/
theorem romClosedForm : Obligations.RomClosedForm := by
  intro p i
  refine ⟨symbolAt_toNat_upper p, symbolAt_toNat_lower p, symbolAt_toNat_digit p, fun h => ?_, fun h => ?_⟩
  · obtain rfl : i = 62 := BitVec.eq_of_toNat_eq h
    exact symbolAt_62 p
  · obtain rfl : i = 63 := BitVec.eq_of_toNat_eq h
    exact symbolAt_63 p

/-! ## The codes are distinct (R25, R7) -/

/-- ALNUM, said on the number a code is (R9). -/
theorem isAlnum_iff (c : Byte) : isAlnum c = true ↔
    (0x41 ≤ c.toNat ∧ c.toNat ≤ 0x5A) ∨ (0x61 ≤ c.toNat ∧ c.toNat ≤ 0x7A) ∨
      (0x30 ≤ c.toNat ∧ c.toNat ≤ 0x39) := by
  simp [isAlnum, BitVec.le_def, or_assoc]

/-- The three ranges that share the codes of ALNUM (R22). -/
theorem symbolAt_toNat_cases (p : Params) {i : Index} (h : i.toNat < 62) :
    (i.toNat ≤ 25 ∧ (symbolAt p i).toNat = 0x41 + i.toNat) ∨
    (26 ≤ i.toNat ∧ i.toNat ≤ 51 ∧ (symbolAt p i).toNat = 0x61 + (i.toNat - 26)) ∨
    (52 ≤ i.toNat ∧ (symbolAt p i).toNat = 0x30 + (i.toNat - 52)) := by
  rcases Nat.lt_or_ge i.toNat 26 with h26 | h26
  · exact .inl ⟨by omega, symbolAt_toNat_upper p (by omega)⟩
  · rcases Nat.lt_or_ge i.toNat 52 with h52 | h52
    · exact .inr (.inl ⟨h26, by omega, symbolAt_toNat_lower p h26 (by omega)⟩)
    · exact .inr (.inr ⟨h52, symbolAt_toNat_digit p h52 (by omega)⟩)

theorem symbolAt_isAlnum (p : Params) {i : Index} (h : i.toNat < 62) : isAlnum (symbolAt p i) = true := by
  rw [isAlnum_iff]
  rcases symbolAt_toNat_cases p h with ⟨_, e⟩ | ⟨_, _, e⟩ | ⟨_, e⟩ <;> omega

/-- The ranges of the codes do not meet, and the code determines the place in its range. -/
theorem symbolAt_inj_of_lt (p : Params) {i j : Index} (hi : i.toNat < 62) (hj : j.toNat < 62)
    (h : symbolAt p i = symbolAt p j) : i = j := by
  have hc := congrArg BitVec.toNat h
  apply BitVec.eq_of_toNat_eq
  rcases symbolAt_toNat_cases p hi with ⟨_, ei⟩ | ⟨_, _, ei⟩ | ⟨_, ei⟩ <;>
    rcases symbolAt_toNat_cases p hj with ⟨_, ej⟩ | ⟨_, _, ej⟩ | ⟨_, ej⟩ <;> omega

/-- The indices by what decides their code: a range of ALNUM, SYM62 or SYM63 (R22). -/
theorem index_cases (i : Index) : i.toNat < 62 ∨ i = 62 ∨ i = 63 := by bv_omega

/-- A code outside ALNUM is none of the first 62 (R7, R22). -/
theorem symbolAt_ne_of_not_isAlnum {p : Params} {i : Index} {c : Byte} (hi : i.toNat < 62)
    (hc : isAlnum c = false) : symbolAt p i ≠ c := by
  rintro rfl
  exact absurd (symbolAt_isAlnum p hi) (by simp [hc])

/-- Settles O7: the first 62 codes are those of ALNUM, each once; the free two and PAD are outside ALNUM and
differ from each other. -/
theorem romInjectiveWithoutPad : Obligations.RomInjectiveWithoutPad := by
  rintro p ⟨hne, h62, h63, hpad, hp62, hp63, -⟩
  constructor
  · intro i j h
    rcases index_cases i with hi | rfl | rfl <;> rcases index_cases j with hj | rfl | rfl
    · exact symbolAt_inj_of_lt p hi hj h
    · exact absurd h (symbolAt_ne_of_not_isAlnum hi h62)
    · exact absurd h (symbolAt_ne_of_not_isAlnum hi h63)
    · exact absurd h.symm (symbolAt_ne_of_not_isAlnum hj h62)
    · rfl
    · exact absurd h hne
    · exact absurd h.symm (symbolAt_ne_of_not_isAlnum hj h63)
    · exact absurd h.symm hne
    · rfl
  · intro i
    rcases index_cases i with hi | rfl | rfl
    · exact symbolAt_ne_of_not_isAlnum hi hpad
    · exact hp62.symm
    · exact hp63.symm

/-! ## STATUS as a word (R28) -/

/-- Every bit of STATUS as the host reads it. -/
theorem Status.word_getLsbD (s : Status) (k : Nat) :
    s.word.getLsbD k =
      if k = 0 then s.busy else if k = 1 then s.done else if k < 4 then false
      else if k < 8 then s.err.getLsbD (k - 4) else if k = 8 then s.wbusy else false := by
  simp only [Status.word, BitVec.getLsbD_append, BitVec.getLsbD_ofBool]
  rcases (by omega : k = 0 ∨ k = 1 ∨ (2 ≤ k ∧ k < 4) ∨ (4 ≤ k ∧ k < 8) ∨ k = 8 ∨ 8 < k) with
    rfl | rfl | hk | hk | rfl | hk
  · rfl
  · rfl
  · grind
  · grind
  · rfl
  · grind

/-- Settles O45: the single bits, and then each field by its range in `Status.word_getLsbD`. -/
theorem statusWordLayout : Obligations.StatusWordLayout := by
  intro s
  refine ⟨s.word_getLsbD 0, s.word_getLsbD 1, ?_, ?_, s.word_getLsbD 8, ?_⟩ <;>
    refine BitVec.eq_of_getLsbD_eq fun k hk => ?_ <;>
    rw [BitVec.getLsbD_extractLsb', Status.word_getLsbD]
  · rw [if_neg (by omega), if_neg (by omega), if_pos (by omega)]
    simp
  · rw [if_neg (by omega), if_neg (by omega), if_neg (by omega), if_pos (by omega)]
    simp [hk]
  · rw [if_neg (by omega), if_neg (by omega), if_neg (by omega), if_neg (by omega), if_neg (by omega)]
    simp

/-- The bits a write to STATUS acts on: DONE's and WBUSY's (R28). -/
theorem statusMask_getLsbD : ∀ k < 32, (0x00000102 : Word).getLsbD k = (k == 1 || k == 8) := by decide

/-- A write to STATUS on the word: it clears the bits of the value that are bit 1 or bit 8. -/
theorem Status.word_writeOneToClear (s : Status) (v : Word) :
    (s.writeOneToClear v).word = s.word &&& ~~~(v &&& 0x00000102) := by
  apply BitVec.eq_of_getLsbD_eq
  intro k hk
  simp only [BitVec.getLsbD_and, BitVec.getLsbD_not, statusMask_getLsbD k hk, Status.word_getLsbD,
    writeOneToClear_busy, writeOneToClear_done, writeOneToClear_err, writeOneToClear_wbusy]
  by_cases h1 : k = 1
  · subst h1; simp
  · by_cases h8 : k = 8
    · subst h8; simp
    · simp [h1, h8, hk]

/-! ## A host's register accesses (R20, R51) -/

/-- A host access at the head of the moves. -/
theorem step_access {s : State} {a : Access} {rest : List Turn} (h : s.turns = .access a :: rest) :
    step s = .next (hostAccess a { s with turns := rest }) := by
  simp only [step, takeTurn, h]

/-- A register's offset as an access gives it. -/
theorem resolve_regOffset (cap : Nat) (r : Reg) :
    resolve cap .w32 (BitVec.ofNat 18 r.offset) = some (.reg r) := by cases r <;> rfl

/-- A 32-bit write at a register's offset goes to that register, in any state. -/
theorem step_write_register {s : State} {r : Reg} {v : Word} {rest : List Turn}
    (h : s.turns = .access (.write .w32 (BitVec.ofNat 18 r.offset) v) :: rest) :
    step s = .next { writeTarget .w32 v { s with turns := rest } (.reg r) with resp := some .written } := by
  rw [step_access h, hostAccess, hostWrite, resolve_regOffset]

/-- With BUSY = 0 a 32-bit read at a register's offset returns its exact value. -/
theorem step_read_register_idle {s : State} {r : Reg} {rest : List Turn} (hb : s.status.busy = false)
    (h : s.turns = .access (.read .w32 (BitVec.ofNat 18 r.offset)) :: rest) :
    step s = .next { s with turns := rest, resp := some (.data (s.readReg r)) } := by
  rw [step_access h, hostAccess, hostRead, resolve_regOffset]
  simp only [hb, Bool.false_and]
  cases r <;> rfl

/-- Settles O46: the write reaches `writeOneToClear`, in any state. -/
theorem statusWriteClears : Obligations.StatusWriteClears := by
  intro s rest v
  refine ⟨s.status.writeOneToClear v, ?_, s.status.word_writeOneToClear v⟩
  rw [step_write_register (r := .status) rfl]
  rfl

/-- Settles O41: an idle block accepts the word. -/
theorem commandWriteIsAccepted : Obligations.CommandWriteIsAccepted := by
  intro s w rest hb ht
  rw [step_write_register (r := .cmd) ht]
  simp only [writeTarget, hb]
  rfl

/-- Settles O44, register by register. -/
theorem idleRegisterAccesses : Obligations.IdleRegisterAccesses := by
  intro s rest v hb
  refine ⟨fun off hmem => ?_, ?_, ?_, fun off hoff => ?_⟩
  · simp only [List.mem_cons, Prod.mk.injEq, List.not_mem_nil, or_false] at hmem
    rcases hmem with ⟨rfl, rfl⟩ | ⟨rfl, rfl⟩ | ⟨rfl, rfl⟩ | ⟨rfl, rfl⟩ | ⟨rfl, rfl⟩ | ⟨rfl, rfl⟩ | ⟨rfl, rfl⟩
    · exact step_read_register_idle (r := .cmd) hb rfl
    · exact step_read_register_idle (r := .status) hb rfl
    · exact step_read_register_idle (r := .ilen) hb rfl
    · exact step_read_register_idle (r := .olen) hb rfl
    · exact step_read_register_idle (r := .capr) hb rfl
    · exact step_read_register_idle (r := .arg) hb rfl
    · exact step_read_register_idle (r := .res) hb rfl
  · rw [step_write_register (r := .ilen) rfl]
    simp [writeTarget, hb]
  · rw [step_write_register (r := .arg) rfl]
    simp [writeTarget, hb]
  · rcases hoff with rfl | rfl | rfl
    · rw [step_write_register (r := .olen) rfl]; rfl
    · rw [step_write_register (r := .capr) rfl]; rfl
    · rw [step_write_register (r := .res) rfl]; rfl

/-! ## The idle block and reset -/

theorem blockStep_idle {s : State} (h : s.status.busy = false) : blockStep s = .next s := by
  rw [blockStep, h]
  rfl

theorem step_block {s : State} {rest : List Turn} (h : s.turns = .block :: rest) :
    step s = blockStep { s with turns := rest } := by
  simp only [step, takeTurn, h]

theorem step_no_turns {s : State} (h : s.turns = []) : step s = blockStep s := by
  simp only [step, takeTurn, h]

/-- Settles O40: both moves are BLOCK's, and an idle block has no step. -/
theorem idleBlockDoesNothing : Obligations.IdleBlockDoesNothing := by
  intro s hb
  refine ⟨fun rest ht => ?_, fun ht => ?_⟩
  · rw [step_block ht]
    exact blockStep_idle hb
  · rw [step_no_turns ht]
    exact blockStep_idle hb

/-- Settles O56: each value is the one `State.reset` names. -/
theorem resetValues : Obligations.ResetValues :=
  ⟨rfl, rfl, rfl, rfl, rfl, rfl, rfl, rfl, rfl, rfl⟩

/-! ## What a command leaves unchanged -/

/-- A unit command writes RES and completes; the term ENCGRP with N = 0 keeps RES (assumption log 9). -/
theorem exec_unit_next {i : Instr} {s t : State} (hu : isUnit i = true) (he : exec i s = .next t) :
    ∃ r c, t = (s.setRes r).complete c := by
  cases hw : i.wellFormed with
  | true =>
    obtain ⟨r, c, hexec⟩ := exec_unit hw hu
    rw [hexec] at he
    cases he
    exact ⟨_, _, rfl⟩
  | false =>
    cases i with
    | encgrp n =>
      have hn : n = 0 := by simpa [Instr.wellFormed] using hw
      subst hn
      cases he
      exact ⟨s.res, .badCmd, rfl⟩
    | _ => cases hw

/-- Settles O35: RES and STATUS are the fields that `exec_unit_next` names. -/
theorem unitCommandFrame : Obligations.UnitCommandFrame := by
  intro i s t hu he
  obtain ⟨r, c, rfl⟩ := exec_unit_next hu he
  exact ⟨⟨rfl, rfl, rfl, rfl, rfl⟩, rfl, rfl, rfl, rfl, rfl, fun _ => rfl⟩

/-- A frame command completes (VALIDATE), or ends with an output that fits in OBUF or an error (ENCODE,
DECODE). -/
theorem exec_frame_next {i : Instr} {s t : State} (hu : isUnit i = false) (he : exec i s = .next t) :
    (∃ c, t = s.complete c) ∨
    (i ≠ .validate ∧ ∃ r, (∀ y, r = .ok y → y.length ≤ s.params.cap) ∧ t = s.finishFrame r) := by
  cases i with
  | validate => cases he; exact .inl ⟨_, rfl⟩
  | encode =>
    cases he
    exact .inr ⟨nofun, _, fun _ => encodeOutcome_length_le, encodeFrame_eq_finishFrame s⟩
  | decode =>
    cases he
    exact .inr ⟨nofun, _, fun _ => decodeOutcome_length_le, decodeFrame_eq_finishFrame s⟩
  | symat | classify | encgrp n | decgrp final => cases hu

/-- The end of ENCODE and DECODE writes OLEN, STATUS and OBUF alone. -/
theorem finishFrame_registers (s : State) (r : Except ErrCode (List Byte)) :
    SameContext s (s.finishFrame r) ∧ (s.finishFrame r).cmd = s.cmd ∧ (s.finishFrame r).ilen = s.ilen ∧
    (s.finishFrame r).arg = s.arg ∧ (s.finishFrame r).res = s.res ∧
    (s.finishFrame r).status.wbusy = s.status.wbusy := by
  cases r with
  | error c => exact ⟨⟨rfl, rfl, rfl, rfl, rfl⟩, rfl, rfl, rfl, rfl, rfl⟩
  | ok y => exact ⟨⟨rfl, rfl, rfl, rfl, rfl⟩, rfl, rfl, rfl, rfl, rfl⟩

/-- A command that errs writes no byte (R185). -/
theorem finishFrame_sameBytes {s : State} {r : Except ErrCode (List Byte)}
    (herr : (s.finishFrame r).status.err ≠ 0) : SameBytes s (s.finishFrame r) := by
  cases r with
  | error c => exact fun _ => rfl
  | ok y => exact absurd rfl herr

/-- Outside OBUF[0..OLEN-1] every byte stays (R61): OLEN is the output's exact length, as CAP is below 2^32. -/
theorem finishFrame_readByte_outside {s : State} {r : Except ErrCode (List Byte)} (hcap : s.params.cap ≤ 65536)
    (hfit : ∀ y, r = .ok y → y.length ≤ s.params.cap) {a : Nat}
    (ha : a < obufBase ∨ obufBase + (s.finishFrame r).olen.toNat ≤ a) :
    (s.finishFrame r).readByte a = s.readByte a := by
  cases r with
  | error c => rfl
  | ok y =>
    have hy := hfit y rfl
    have holen : (s.finishFrame (.ok y)).olen.toNat = y.length := Nat.mod_eq_of_lt (by omega)
    exact readByte_writeBytes_outside s (holen ▸ ha)

/-- Settles O36: VALIDATE only completes; ENCODE and DECODE end as `finishFrame` does. -/
theorem frameCommandFrame : Obligations.FrameCommandFrame := by
  intro i s t hu he
  rcases exec_frame_next hu he with ⟨c, rfl⟩ | ⟨hi, r, hfit, rfl⟩
  · exact ⟨⟨rfl, rfl, rfl, rfl, rfl⟩, rfl, rfl, rfl, rfl, rfl, fun _ => rfl, fun _ _ => rfl, fun _ _ _ => rfl⟩
  · obtain ⟨hctx, hcmd, hilen, harg, hres, hwbusy⟩ := finishFrame_registers s r
    refine ⟨hctx, hcmd, hilen, harg, hres, hwbusy, fun h => absurd h hi, ?_, ?_⟩
    · rintro (h | herr)
      · exact absurd h hi
      · exact finishFrame_sameBytes herr
    · rintro ⟨-, hcap, -⟩ a ha
      exact finishFrame_readByte_outside hcap hfit ha

/-- No command changes the parameters or the model's own fields. -/
theorem exec_sameContext {i : Instr} {s t : State} (he : exec i s = .next t) : SameContext s t := by
  cases hu : isUnit i with
  | true => exact (unitCommandFrame i s t hu he).1
  | false => exact (frameCommandFrame i s t hu he).1

/-! ## The constants (R24, R31) -/

theorem blockStep_params {s t : State} (h : blockStep s = .next t) : t.params = s.params := by
  rcases blockStep_cases s with ⟨-, e⟩ | ⟨i, -, -, e⟩ | ⟨-, -, -, e⟩ <;> rw [e] at h
  · cases h; rfl
  · exact (exec_sameContext h).1
  · cases h; rfl

theorem hostRead_params (w : Width) (off : Offset) (s : State) : (hostRead w off s).params = s.params := by
  rcases hostRead_cases w off s with ⟨-, e⟩ | ⟨_, -, -, -, e⟩ | ⟨_, -, -, e⟩ <;> rw [e]

theorem writeTarget_params (w : Width) (v : Word) (s : State) (t : Target) :
    (writeTarget w v s t).params = s.params := by
  rcases writeTarget_cases w v s t with ⟨-, e⟩ | e | ⟨-, e⟩ | ⟨-, -, e⟩ | ⟨-, -, e⟩ | ⟨-, -, e⟩ |
    ⟨_, -, -, e⟩ | ⟨_, -, -, e⟩ <;> rw [e] <;> rfl

theorem hostWrite_params (w : Width) (off : Offset) (v : Word) (s : State) :
    (hostWrite w off v s).params = s.params := by
  rcases hostWrite_cases w off v s with ⟨-, e⟩ | ⟨t, -, e⟩ <;> rw [e]
  exact writeTarget_params w v s t

theorem hostAccess_params (a : Access) (s : State) : (hostAccess a s).params = s.params := by
  cases a with
  | read w off => exact hostRead_params w off s
  | write w off v => exact hostWrite_params w off v s

/-- No move changes the parameters, reset included. -/
theorem step_params {s t : State} (h : step s = .next t) : t.params = s.params := by
  rcases step_cases s with ⟨-, e⟩ | ⟨r, -, e⟩ | ⟨a, r, -, e⟩ | ⟨r, -, e⟩ | ⟨a, r, -, e⟩ <;> rw [e] at h
  · exact blockStep_params h
  · exact (blockStep_params h).trans rfl
  · cases h; exact hostAccess_params a _
  · cases h; rfl
  · cases h

/-- Settles O54: ROM, PAD and CAPR are views of the parameters. -/
theorem constantsNeverChange : Obligations.ConstantsNeverChange := by
  intro s t h
  have hp : t.params = s.params := step_params h
  exact ⟨fun i => by rw [hp], by rw [hp], by rw [State.capr, State.capr, hp], hp⟩

end Sys2Proof.Machine
end

section
/-! PROOFS. Family 20_memory: which accesses the map allows; what a read leaves unchanged; the bytes of a
buffer access; the window. -/

namespace Sys2Proof.Machine

/-! ## The accesses the map allows (R51, R54 to R58) -/

theorem regAt_offset_eq {a : Nat} {r : Reg} (h : regAt a = some r) : r.offset = a := by
  unfold regAt at h
  split at h <;> cases h <;> rfl

/-- The seven registers stand at the multiples of 4 below 0x1C (R51). -/
theorem Reg.offset_aligned (r : Reg) : r.offset % 4 = 0 ∧ r.offset < 0x1C := by cases r <;> decide

theorem bufferOk_iff (cap : Nat) (w : Width) (a : Nat) :
    bufferOk cap w a = true ↔ a % w.bytes = 0 ∧ a + w.bytes ≤ cap := by
  simp [bufferOk]

/-- A base that is a multiple of 4 keeps every natural alignment (R55). -/
theorem add_mod_bytes {base a : Nat} (w : Width) (hbase : base % 4 = 0) :
    (base + a) % w.bytes = a % w.bytes := by
  rcases bytes_cases w with hw | hw | hw <;> rw [hw] <;> omega

/-- The map has a target for exactly the allowed accesses. -/
theorem resolve_isSome_iff {cap : Nat} (w : Width) (off : Offset) (hcap : cap ≤ 65536) :
    (∃ t, resolve cap w off = some t) ↔ RegisterAccess w off ∨ BufferAccess cap w off := by
  constructor
  · rintro ⟨t, ht⟩
    rcases resolve_cases ht with ⟨r, -, hw, hr⟩ | ⟨a, -, hoff, hok⟩ | ⟨a, -, hoff, hok⟩
    · exact .inl ⟨hw, regAt_offset_eq hr ▸ r.offset_aligned⟩
    · obtain ⟨halign, hfit⟩ := (bufferOk_iff cap w a).mp hok
      exact .inr ⟨by rw [hoff, add_mod_bytes w rfl, halign], .inl (by rw [hoff, ibufBase]; omega)⟩
    · obtain ⟨halign, hfit⟩ := (bufferOk_iff cap w a).mp hok
      exact .inr ⟨by rw [hoff, add_mod_bytes w rfl, halign], .inr (by rw [hoff, obufBase]; omega)⟩
  · rintro (hreg | hbuf)
    · obtain ⟨r, hr⟩ := resolve_register (cap := cap) hreg
      exact ⟨_, hr⟩
    · rcases resolve_buffer hcap hbuf with ⟨-, hr⟩ | ⟨-, hr⟩ <;> exact ⟨_, hr⟩

/-- An access without a target changes the response alone (R58). -/
theorem hostAccess_refused {a : Access} {s : State}
    (h : resolve s.params.cap a.place.1 a.place.2 = none) :
    hostAccess a s = { s with resp := some .busError } := by
  cases a with
  | read w off => simp only [hostAccess, hostRead, show resolve s.params.cap w off = none from h]
  | write w off v => simp only [hostAccess, hostWrite, show resolve s.params.cap w off = none from h]

/-- An access with a target is answered with data, or as a write that is taken. -/
theorem hostAccess_resp_of_target {a : Access} {s : State} {t : Target}
    (h : resolve s.params.cap a.place.1 a.place.2 = some t) :
    (∃ v, (hostAccess a s).resp = some (.data v)) ∨ (hostAccess a s).resp = some .written := by
  cases a with
  | read w off =>
    rcases hostRead_cases w off s with ⟨hn, -⟩ | ⟨_, -, -, -, e⟩ | ⟨_, -, -, e⟩
    · cases h.symm.trans hn
    · exact .inl ⟨_, congrArg State.resp e⟩
    · exact .inl ⟨_, congrArg State.resp e⟩
  | write w off v =>
    rcases hostWrite_cases w off v s with ⟨hn, -⟩ | ⟨_, -, e⟩
    · cases h.symm.trans hn
    · exact .inr (congrArg State.resp e)

/-- Settles O47: an access has a target exactly if it is allowed, and is refused exactly without one. -/
theorem busErrorExactly : Obligations.BusErrorExactly := by
  rintro s a rest ⟨-, hcap, -⟩
  have htarget := resolve_isSome_iff a.place.1 a.place.2 hcap
  rw [step_access rfl]
  constructor
  · intro hreg hbuf
    have hnone : resolve s.params.cap a.place.1 a.place.2 = none :=
      Option.eq_none_iff_forall_ne_some.mpr fun t ht => (htarget.mp ⟨t, ht⟩).elim hreg hbuf
    exact congrArg Host.Outcome.next (hostAccess_refused (s := { s with turns := rest }) hnone)
  · intro hallowed
    obtain ⟨t, ht⟩ := htarget.mpr hallowed
    refine ⟨_, rfl, ?_⟩
    rcases hostAccess_resp_of_target (s := { s with turns := rest }) ht with ⟨v, e⟩ | e <;> simp [e]

/-! ## What a read leaves unchanged (R60) -/

theorem hostRead_frame (w : Width) (off : Offset) (s : State) :
    hostRead w off s = { s with resp := (hostRead w off s).resp, draws := (hostRead w off s).draws } := by
  rcases hostRead_cases w off s with ⟨-, e⟩ | ⟨_, -, -, -, e⟩ | ⟨_, -, -, e⟩ <;> rw [e]

/-- A target's exact value does not depend on the model's response, count of draws and moves. -/
theorem readTarget_modelFields (s : State) (w : Width) (t : Target) (d : Nat) (m : List Turn)
    (x : Option Response) :
    State.readTarget { s with draws := d, turns := m, resp := x } w t = s.readTarget w t := by
  cases t with
  | reg r => cases r <;> rfl
  | ibuf a => rfl
  | obuf a => rfl

/-- With BUSY = 0 no read is a draw: the response is that of the same read in the same registers and bytes. -/
theorem hostRead_resp_idle {s : State} (hb : s.status.busy = false) (w : Width) (off : Offset) (d : Nat)
    (m : List Turn) (x : Option Response) :
    (hostRead w off { s with draws := d, turns := m, resp := x }).resp = (hostRead w off s).resp := by
  unfold hostRead
  cases resolve s.params.cap w off with
  | none => rfl
  | some t => simp [hb, readTarget_modelFields]

/-- The same read again, at any later turn of an idle block, gives the same response. -/
theorem hostRead_resp_again {s : State} (hb : s.status.busy = false) (w : Width) (off : Offset)
    (m : List Turn) :
    (hostRead w off { hostRead w off s with turns := m }).resp = (hostRead w off s).resp := by
  have hframe := congrArg (fun r : State => (hostRead w off { r with turns := m }).resp)
    (hostRead_frame w off s)
  exact hframe.trans (hostRead_resp_idle hb w off _ m _)

/-- Settles O48: the frame of the first read, and the second read after it. -/
theorem readsHaveNoSideEffect : Obligations.ReadsHaveNoSideEffect := by
  intro s t u w off rest ht hu
  rw [step_access rfl] at ht hu
  cases ht
  cases hu
  exact ⟨hostRead_frame w off { s with turns := rest },
    fun hb => hostRead_resp_again (s := { s with turns := rest }) hb w off rest⟩

/-! ## The bytes of a buffer access (R53) -/

/-- An allowed buffer access reaches the bytes at its own window offset. -/
theorem resolve_buffer_bytes {s : State} {w : Width} {off : Offset} (hcap : s.params.cap ≤ 65536)
    (h : BufferAccess s.params.cap w off) :
    ∃ t, resolve s.params.cap w off = some t ∧ s.readTarget w t = s.readLE w off.toNat ∧
      ∀ v, writeTarget w v s t =
        if s.status.busy then s.ignoreBusyWrite else s.writeBytes off.toNat (storedBytes w v) := by
  rcases resolve_buffer hcap h with ⟨_, hr⟩ | ⟨hlo, hr⟩
  · have hoff : ibufBase + (off.toNat - 0x10000) = off.toNat := by
      obtain ⟨-, hin⟩ := h
      simp only [ibufBase]
      omega
    exact ⟨_, hr, by rw [State.readTarget, hoff], fun v => by rw [writeTarget, hoff]⟩
  · have hoff : obufBase + (off.toNat - 0x20000) = off.toNat := by
      simp only [obufBase]
      omega
    exact ⟨_, hr, by rw [State.readTarget, hoff], fun v => by rw [writeTarget, hoff]⟩

theorem step_write_buffer_idle {s : State} {w : Width} {off : Offset} {v : Word} {rest : List Turn}
    (hb : s.status.busy = false) (hcap : s.params.cap ≤ 65536) (h : BufferAccess s.params.cap w off) :
    step { s with turns := .access (.write w off v) :: rest } =
      .next { s.writeBytes off.toNat (storedBytes w v) with turns := rest, resp := some .written } := by
  obtain ⟨t, hr, -, hw⟩ := resolve_buffer_bytes (s := { s with turns := rest }) hcap h
  rw [step_access rfl, hostAccess, hostWrite, hr]
  simp only [hw, hb]
  rfl

theorem step_read_buffer_idle {s : State} {w : Width} {off : Offset} {rest : List Turn}
    (hb : s.status.busy = false) (hcap : s.params.cap ≤ 65536) (h : BufferAccess s.params.cap w off) :
    step { s with turns := .access (.read w off) :: rest } =
      .next { s with turns := rest, resp := some (.data (s.readLE w off.toNat)) } := by
  obtain ⟨t, hr, hread, -⟩ := resolve_buffer_bytes (s := { s with turns := rest }) hcap h
  rw [step_access rfl, hostAccess, hostRead, hr]
  simp only [hread, hb, Bool.false_and]
  rfl

theorem bytes_le_four (w : Width) : w.bytes ≤ 4 := by cases w <;> decide

theorem lanes_getElem? (v : Word) {k : Nat} (hk : k < 4) : (lanes v)[k]? = some (lane v k) := by
  interval_cases k <;> rfl

/-- Byte k of what a write stores is lane k of its value. -/
theorem storedBytes_getD {w : Width} {k : Nat} (hk : k < w.bytes) (v : Word) :
    (storedBytes w v).getD k 0 = lane v k := by
  rw [storedBytes, List.getD_eq_getElem?_getD, List.getElem?_take_of_lt hk,
    lanes_getElem? v (hk.trans_le (bytes_le_four w)), Option.getD_some]

/-- Bit i of lane k of what a read returns is a bit of byte k, and 0 beyond the width. -/
theorem readLE_getLsbD (s : State) (w : Width) (a : Nat) {k i : Nat} (hk : k < 4) (hi : i < 8) :
    (s.readLE w a).getLsbD (8 * k + i) =
      (decide (k < w.bytes) && (s.readByte (a + k)).getLsbD i) := by
  cases w
  all_goals
    simp only [State.readLE, Width.bytes, BitVec.getLsbD_setWidth, BitVec.getLsbD_append]
    interval_cases k <;> grind

theorem lane_readLE (s : State) (w : Width) (a : Nat) {k : Nat} (hk : k < 4) :
    lane (s.readLE w a) k = if k < w.bytes then s.readByte (a + k) else 0 := by
  apply BitVec.eq_of_getLsbD_eq
  intro i hi
  rw [lane, BitVec.getLsbD_extractLsb', readLE_getLsbD s w a hk hi]
  split <;> simp [*]

/-- Settles O49: the stored bytes and the value read, lane by lane. -/
theorem bufferAccessIsLittleEndian : Obligations.BufferAccessIsLittleEndian := by
  rintro s w off rest hb ⟨-, hcap, -⟩ hbuf
  constructor
  · intro v
    refine ⟨_, step_write_buffer_idle hb hcap hbuf, rfl, fun k hk => ?_, fun a ha => ?_⟩
    · calc (s.writeBytes off.toNat (storedBytes w v)).readByte (off.toNat + k)
          = (storedBytes w v).getD (off.toNat + k - off.toNat) 0 := by
            rw [readByte_writeBytes, storedBytes_length, if_pos (by omega)]
        _ = lane v k := by rw [Nat.add_sub_cancel_left, storedBytes_getD hk]
    · exact readByte_writeBytes_outside s (by rwa [storedBytes_length])
  · refine ⟨_, step_read_buffer_idle hb hcap hbuf, fun k hk => ?_, fun k hk hk4 => ?_⟩
    · have hk4 : k < 4 := hk.trans_le (bytes_le_four w)
      exact (lane_readLE s w off.toNat hk4).trans (if_pos hk)
    · exact (lane_readLE s w off.toNat hk4).trans (if_neg (by omega))

/-! ## The window (R50) -/

theorem windowOffset_eq_some_iff (p : Params) (addr : Nat) (off : Offset) :
    windowOffset p addr = some off ↔ busAddress p off = addr := by
  have hlt := off.isLt
  unfold windowOffset busAddress
  split
  · rename_i hin
    rw [Option.some_inj, ← BitVec.toNat_inj, BitVec.toNat_ofNat]
    omega
  · simp only [reduceCtorEq, false_iff]
    omega

/-- Settles O50: an address names the offset whose bus address it is. -/
theorem windowStandsAtBase : Obligations.WindowStandsAtBase := by
  rintro p ⟨-, -, -, hbase⟩
  refine ⟨fun off => ⟨?_, (windowOffset_eq_some_iff p _ off).mpr rfl⟩,
    fun addr off => (windowOffset_eq_some_iff p addr off).mp, fun addr hout => ?_⟩
  · have hlt := off.isLt
    rw [busAddress]
    omega
  · exact if_neg (by omega)

end Sys2Proof.Machine
end

section
/-! PROOFS. Family 30_encoding: the fields of a command word; the decoder, the encoder and the table; the text of a
command; illegal words; the groups DECGRP accepts; host programs. -/

namespace Sys2Proof.Machine

/-! ## The fields of a command word (R80), on the number the word is -/

theorem opField_toNat (w : Word) : (opField w).toNat = w.toNat % 16 := by
  simp [opField, BitVec.extractLsb'_toNat]

theorem nField_toNat (w : Word) : (nField w).toNat = w.toNat / 65536 % 4 := by
  simp [nField, BitVec.extractLsb'_toNat, Nat.shiftRight_eq_div_pow]

theorem finalField_eq_iff (w : Word) (final : Bool) :
    finalField w = final ↔ w.toNat / 256 % 2 = final.toNat := by
  have hbit : finalField w = decide (w.toNat / 256 % 2 = 1) := by
    rw [finalField, BitVec.getLsbD, Nat.testBit_eq_decide_div_mod_eq]
  rw [hbit]
  cases final <;> simp

theorem reservedClear_iff (w : Word) : reservedClear w = true ↔
    w.toNat / 16 % 16 = 0 ∧ w.toNat / 512 % 128 = 0 ∧ w.toNat / 262144 = 0 := by
  have hlt := w.isLt
  simp only [reservedClear, Bool.and_eq_true, beq_iff_eq, ← BitVec.toNat_inj, BitVec.extractLsb'_toNat,
    Nat.shiftRight_eq_div_pow, BitVec.ofNat_eq_ofNat, BitVec.toNat_ofNat]
  omega

theorem commandWord_toNat (op : BitVec 4) (final : Bool) (n : BitVec 2) :
    (commandWord op final n).toNat = op.toNat + 256 * final.toNat + 65536 * n.toNat := by
  revert op final n
  decide

/-- The words of the format of R80 are those with the reserved bits clear, each given by its fields. -/
theorem commandWord_eq_iff (op : BitVec 4) (final : Bool) (n : BitVec 2) (w : Word) :
    commandWord op final n = w ↔
      reservedClear w = true ∧ opField w = op ∧ finalField w = final ∧ nField w = n := by
  have hop := op.isLt
  have hn := n.isLt
  rw [reservedClear_iff, finalField_eq_iff, ← BitVec.toNat_inj, ← BitVec.toNat_inj, ← BitVec.toNat_inj,
    commandWord_toNat, opField_toNat, nField_toNat]
  have hfinal := final.toNat_lt
  omega

/-! ## The decoder and the encoder (R84, R85) -/

/-- OP of a command (R81). -/
def opOf : Instr → BitVec 4
  | .symat => 1
  | .classify => 2
  | .validate => 3
  | .encgrp _ => 4
  | .encode => 5
  | .decgrp _ => 6
  | .decode => 7

/-- FINAL of a command (R82). -/
def finalOf : Instr → Bool
  | .decgrp final => final
  | _ => false

/-- N of a command (R83). -/
def nOf : Instr → BitVec 2
  | .encgrp n => n
  | _ => 0

theorem wellFormed_encgrp_iff (n : BitVec 2) : (Instr.encgrp n).wellFormed = true ↔ n.toNat ≠ 0 := by
  simp [Instr.wellFormed, ← BitVec.toNat_inj]

theorem encode_eq_commandWord (i : Instr) : encode i = commandWord (opOf i) (finalOf i) (nOf i) := by
  cases i <;> rfl

/-- The word has the fields of a well-formed command. -/
structure HasFieldsOf (w : Word) (i : Instr) : Prop where
  wellFormed : i.wellFormed = true
  op : (opField w).toNat = (opOf i).toNat
  final : finalField w = finalOf i
  n : nField w = nOf i

/-- A command that has neither field is answered where both are 0. -/
theorem plainCommand_ok {w : Word} {i j : Instr} (h : plainCommand w i = .ok j) :
    i = j ∧ finalField w = false ∧ nField w = 0 := by
  unfold plainCommand at h
  split at h
  · cases h
  · next hf =>
    split at h
    · cases h
    · next hn => exact ⟨Except.ok.inj h, by simpa using hf, by simpa using hn⟩

theorem decode_reservedClear {w : Word} {i : Instr} (h : decode w = .ok i) : reservedClear w = true := by
  unfold decode at h
  split at h
  · cases h
  · next hr => simpa using hr

/-- The decoder answers a command only on the command's own fields, row by row of R85. -/
theorem decode_hasFieldsOf {w : Word} {i : Instr} (h : decode w = .ok i) : HasFieldsOf w i := by
  simp only [decode, decode_reservedClear h, Bool.not_true, Bool.false_eq_true, if_false] at h
  split at h
  case h_4 hop =>
    split at h
    · cases h
    · next hf =>
      split at h
      · cases h
      · next hn =>
        cases h
        exact ⟨by simpa [Instr.wellFormed] using hn, hop, by simpa [finalOf] using hf, rfl⟩
  case h_6 hop =>
    split at h
    · cases h
    · next hn =>
      cases h
      exact ⟨rfl, hop, rfl, by simpa [nOf] using hn⟩
  case h_8 => cases h
  all_goals
    next hop =>
      obtain ⟨rfl, hf, hn⟩ := plainCommand_ok h
      exact ⟨rfl, hop, hf, hn⟩

theorem encode_of_decode {w : Word} {i : Instr} (h : decode w = .ok i) :
    i.wellFormed = true ∧ encode i = w := by
  obtain ⟨hwf, hop, hf, hn⟩ := decode_hasFieldsOf h
  refine ⟨hwf, ?_⟩
  rw [encode_eq_commandWord, commandWord_eq_iff]
  exact ⟨decode_reservedClear h, BitVec.eq_of_toNat_eq hop, hf, hn⟩

/-- The word of a well-formed command decodes to it. -/
theorem decode_encode {i : Instr} (h : i.wellFormed = true) : decode (encode i) = .ok i := by
  cases i with
  | symat => exact Laws.DecodeEncode.symat h
  | classify => exact Laws.DecodeEncode.classify h
  | validate => exact Laws.DecodeEncode.validate h
  | encgrp n => exact Laws.DecodeEncode.encgrp n h
  | encode => exact Laws.DecodeEncode.encode h
  | decgrp final => exact Laws.DecodeEncode.decgrp final h
  | decode => exact Laws.DecodeEncode.decode h

/-- Settles O4: a word that decodes is put together again from its fields; the other direction is the family
`Laws.DecodeEncode`. -/
theorem decodeEncodeAgree : Obligations.DecodeEncodeAgree := by
  intro w i
  constructor
  · exact encode_of_decode
  · rintro ⟨hwf, rfl⟩
    exact decode_encode hwf

/-- Settles O1: each word is the encoding of a well-formed command. -/
theorem legalWordsDecode : Obligations.LegalWordsDecode :=
  ⟨decode_encode (i := .symat) rfl, decode_encode (i := .classify) rfl, decode_encode (i := .validate) rfl,
    decode_encode (i := .encgrp 1) rfl, decode_encode (i := .encgrp 2) rfl, decode_encode (i := .encgrp 3) rfl,
    decode_encode (i := .encode) rfl, decode_encode (i := .decgrp false) rfl,
    decode_encode (i := .decgrp true) rfl, decode_encode (i := .decode) rfl⟩

/-- The decoder by the fields of the word as a number (R85). -/
theorem decode_eq_ok_iff (w : Word) (i : Instr) : decode w = .ok i ↔
    (w.toNat / 16 % 16 = 0 ∧ w.toNat / 512 % 128 = 0 ∧ w.toNat / 262144 = 0) ∧ i.wellFormed = true ∧
      w.toNat % 16 = (opOf i).toNat ∧ w.toNat / 256 % 2 = (finalOf i).toNat ∧
      w.toNat / 65536 % 4 = (nOf i).toNat := by
  rw [decodeEncodeAgree, encode_eq_commandWord, commandWord_eq_iff, reservedClear_iff, finalField_eq_iff,
    ← BitVec.toNat_inj, ← BitVec.toNat_inj, opField_toNat, nField_toNat]
  tauto

/-- A word that decodes to no command is rejected. -/
theorem decode_error_of_ne_ok {w : Word} (h : ∀ i, decode w ≠ .ok i) : ∃ e, decode w = .error e := by
  cases hd : decode w with
  | ok i => exact absurd hd (h i)
  | error e => exact ⟨e, rfl⟩

/-- Settles O3: what OP, FINAL and N name is well-formed; a rejected word has the fields of no command. -/
theorem decodeFollowsFields : Obligations.DecodeFollowsFields := by
  rintro w op final n rfl rfl rfl
  refine ⟨fun hres => decode_error_of_ne_ok fun i hi => ?_, fun h4 h9 h18 => ?_⟩
  · obtain ⟨⟨h4, h9, h18⟩, -⟩ := (decode_eq_ok_iff w i).mp hi
    omega
  · have hok (i : Instr) := fun h => (decode_eq_ok_iff w i).mpr ⟨⟨h4, h9, h18⟩, h⟩
    refine ⟨fun hop hf hn => hok .symat ⟨rfl, hop, hf, hn⟩, fun hop hf hn => hok .classify ⟨rfl, hop, hf, hn⟩,
      fun hop hf hn => hok .validate ⟨rfl, hop, hf, hn⟩, fun hop hf hn => ?_,
      fun hop hf hn => hok .encode ⟨rfl, hop, hf, hn⟩, fun hop hn => ?_,
      fun hop hf hn => hok .decode ⟨rfl, hop, hf, hn⟩, fun hbad => decode_error_of_ne_ok fun i hi => ?_⟩
    · have hN : w.toNat / 65536 % 4 = (BitVec.ofNat 2 (w.toNat / 65536 % 4)).toNat := by
        rw [BitVec.toNat_ofNat]
        omega
      exact hok _ ⟨(wellFormed_encgrp_iff _).mpr (hN ▸ hn), hop, hf, hN⟩
    · refine hok _ ⟨rfl, hop, ?_, hn⟩
      rcases Nat.mod_two_eq_zero_or_one (w.toNat / 256) with hf | hf <;> rw [hf] <;> rfl
    · obtain ⟨-, hwf, hop, hf, hn⟩ := (decode_eq_ok_iff w i).mp hi
      cases i with
      | encgrp n =>
        rw [wellFormed_encgrp_iff] at hwf
        simp [opOf, finalOf, nOf] at hop hf hn
        omega
      | _ => simp [opOf, finalOf, nOf] at hop hf hn; omega

/-! ## The table of R84 and the ten legal words -/

theorem wellFormed_iff_mem (i : Instr) : i.wellFormed = true ↔ i ∈ legalInstrs := by
  cases i with
  | encgrp n => revert n; decide
  | decgrp final => revert final; decide
  | _ => decide

/-- The bits an N field has, bits 17:16 (R80). -/
theorem nMask_getLsbD : ∀ k < 32, (0x00030000 : Word).getLsbD k = decide (16 ≤ k ∧ k < 18) := by decide

theorem and_nMask (w : Word) : w &&& 0x00030000 = commandWord 0 false (nField w) := by
  apply BitVec.eq_of_getLsbD_eq
  intro k hk
  rw [BitVec.getLsbD_and, nMask_getLsbD k hk]
  simp [commandWord, nField]
  grind

theorem and_finalMask (w : Word) : w &&& 0x00000100 = commandWord 0 (finalField w) 0 := by
  have h := BitVec.and_twoPow w 8
  rw [finalField]
  cases hb : w.getLsbD 8 <;> rw [hb] at h <;> exact h

/-- A word that equals a pattern under a mask is the pattern with the word's bits outside the mask. -/
theorem eq_or_of_and_eq {w m p : Word} (h : w &&& m = p) : w = p ||| (w &&& ~~~m) := by
  rw [← h, ← BitVec.and_or_distrib_left, BitVec.or_not_self, BitVec.and_allOnes]

theorem eq_encode_encgrp {w : Word} (h : w &&& 0xFFFCFFFF = 0x00000004) : w = encode (.encgrp (nField w)) := by
  have hor : ∀ n, 0x00000004 ||| commandWord 0 false n = encode (.encgrp n) := by decide
  calc w = 0x00000004 ||| (w &&& 0x00030000) := eq_or_of_and_eq h
    _ = encode (.encgrp (nField w)) := by rw [and_nMask, hor]

theorem eq_encode_decgrp {w : Word} (h : w &&& 0xFFFFFEFF = 0x00000006) :
    w = encode (.decgrp (finalField w)) := by
  have hor : ∀ final, 0x00000006 ||| commandWord 0 final 0 = encode (.decgrp final) := by decide
  calc w = 0x00000006 ||| (w &&& 0x00000100) := eq_or_of_and_eq h
    _ = encode (.decgrp (finalField w)) := by rw [and_finalMask, hor]

/-- The table of R84, row by row. -/
theorem legalWord_iff_row (w : Word) : legalWord w = true ↔
    w = encode .symat ∨ w = encode .classify ∨ w = encode .validate ∨
      (w &&& 0xFFFCFFFF = 0x00000004 ∧ nField w ≠ 0) ∨ w = encode .encode ∨
      w &&& 0xFFFFFEFF = 0x00000006 ∨ w = encode .decode := by
  have hfull : w &&& 0xFFFFFFFF = w := BitVec.and_allOnes
  simp only [legalWord, opTable, List.any_cons, List.any_nil, Bool.or_false, Bool.or_eq_true,
    Bool.and_eq_true, beq_iff_eq, hfull]
  simp [encode, commandWord]

/-- A word of a row is the encoding of a well-formed command. -/
theorem exists_encode_of_legalWord {w : Word} (h : legalWord w = true) :
    ∃ i, i.wellFormed = true ∧ encode i = w := by
  rcases (legalWord_iff_row w).mp h with h | h | h | ⟨h, hn⟩ | h | h | h
  · exact ⟨.symat, rfl, h.symm⟩
  · exact ⟨.classify, rfl, h.symm⟩
  · exact ⟨.validate, rfl, h.symm⟩
  · exact ⟨.encgrp (nField w), by simpa [Instr.wellFormed] using hn, (eq_encode_encgrp h).symm⟩
  · exact ⟨.encode, rfl, h.symm⟩
  · exact ⟨.decgrp (finalField w), rfl, (eq_encode_decgrp h).symm⟩
  · exact ⟨.decode, rfl, h.symm⟩

theorem legalWord_encode : ∀ i ∈ legalInstrs, legalWord (encode i) = true := by decide

/-- A word has a command exactly if it is legal (R84). -/
theorem exists_decode_iff_legalWord (w : Word) : (∃ i, decode w = .ok i) ↔ legalWord w = true := by
  constructor
  · rintro ⟨i, hi⟩
    obtain ⟨hwf, rfl⟩ := encode_of_decode hi
    exact legalWord_encode i ((wellFormed_iff_mem i).mp hwf)
  · intro h
    obtain ⟨i, hwf, rfl⟩ := exists_encode_of_legalWord h
    exact ⟨i, decode_encode hwf⟩

/-- The words that decode are the encodings of the ten commands. -/
theorem exists_decode_iff_mem (w : Word) : (∃ i, decode w = .ok i) ↔ w ∈ legalInstrs.map encode := by
  simp only [decodeEncodeAgree w, wellFormed_iff_mem, List.mem_map]

/-- Settles O2: the decoder stands between the table and the list, which is that of the ten encodings. -/
theorem legalIffTableRow : Obligations.LegalIffTableRow := fun w =>
  ⟨exists_decode_iff_legalWord w, (exists_decode_iff_legalWord w).symm.trans (exists_decode_iff_mem w)⟩

/-! ## The text of a command (R90) -/

/-- Settles O5: the spellings one by one; a well-formed command is one of the ten. -/
theorem textStandsForWord : Obligations.TextStandsForWord := by
  refine ⟨by decide, by decide, fun i hwf => ?_⟩
  have hten : ∀ i ∈ legalInstrs, assemble i.text = some (encode i) := by decide
  exact hten i ((wellFormed_iff_mem i).mp hwf)

/-! ## Illegal words (R92, R185) -/

theorem blockStep_illegal {s : State} (hb : s.status.busy = true) (h : legalWord s.cmd = false) :
    blockStep s = .next s.badCommand := by
  rcases blockStep_cases s with ⟨hidle, -⟩ | ⟨i, -, hd, -⟩ | ⟨e, -, -, hstep⟩
  · cases hb.symm.trans hidle
  · cases h.symm.trans ((exists_decode_iff_legalWord s.cmd).mp ⟨i, hd⟩)
  · exact hstep

/-- Settles O39: both moves are BLOCK's, and the word has no command. -/
theorem illegalWordIsBadCommand : Obligations.IllegalWordIsBadCommand := by
  intro s hb hcmd
  have hill : legalWord s.cmd = false :=
    Bool.eq_false_of_not_eq_true fun h => hcmd ((legalIffTableRow s.cmd).2.mp h)
  refine ⟨fun rest ht => ?_, fun ht => ?_⟩
  · rw [step_block ht]
    exact blockStep_illegal (s := { s with turns := rest }) hb hill
  · rw [step_no_turns ht]
    exact blockStep_illegal hb hill

/-! ## The groups DECGRP accepts (R82, R125, R165) -/

theorem succeeded_execDecgrp (s : State) (final : Bool) :
    succeeded (exec (.decgrp final) s) = true ↔ groupCode s.params final (lanes s.arg) = .ok := by
  simp only [exec, execDecgrp, succeeded, complete_status, completed_err, beq_iff_eq]
  cases groupCode s.params final (lanes s.arg) <;> decide

theorem isOutsider_eq_false_iff (p : Params) (c : Byte) :
    isOutsider p c = false ↔ isMember p c = true ∨ isPad p c = true := by
  simp only [isOutsider, Bool.and_eq_false_iff, Bool.not_eq_false']

/-- A run of padding after symbols that are none is the trailing run (R121). -/
theorem trailingPads_append {p : Params} {u v : List Byte} (hu : ∀ c ∈ u, isPad p c = false)
    (hv : ∀ c ∈ v, isPad p c = true) : trailingPads p (u ++ v) = v.length := by
  have hnone : u.reverse.takeWhile (isPad p) = [] := by
    rw [List.takeWhile_eq_nil_iff]
    intro hlt hpad
    exact absurd hpad (by simpa using hu _ (List.mem_reverse.mp (List.getElem_mem hlt)))
  rw [trailingPads, List.reverse_append, List.takeWhile_append_of_pos (by simpa using hv), hnone]
  simp

/-- The trailing run consists of PADs (R121). -/
theorem isPad_of_mem_trailing {p : Params} {t : List Byte} {c : Byte}
    (h : c ∈ t.drop (t.length - trailingPads p t)) : isPad p c = true := by
  have hlen : trailingPads p t = (t.rtakeWhile (isPad p)).length := by
    rw [List.rtakeWhile, List.length_reverse, trailingPads]
  rw [hlen, ← List.suffix_iff_eq_drop.mp (List.rtakeWhile_suffix (isPad p) t)] at h
  exact List.mem_rtakeWhile_imp h

theorem groupCode_eq_ok_iff (p : Params) (final : Bool) (g : List Byte) :
    groupCode p final g = .ok ↔ (∀ c ∈ g, isOutsider p c = false) ∧ trailingPads p g ≤ 2 ∧
      (∀ c ∈ g.take (4 - trailingPads p g), isPad p c = false) ∧
      (0 < trailingPads p g → final = true) := by
  unfold groupCode
  split_ifs with hout hk hpad hfinal <;> simp_all

/-- A group's symbols, then at most two PADs (R125). -/
def GroupSplit (p : Params) (u v : List Byte) : Prop :=
  (∀ c ∈ u, isMember p c = true) ∧ (∀ c ∈ v, isPad p c = true) ∧ v.length ≤ 2

/-- DECGRP's checks pass on members and then at most two PADs, with PADs in a final group only. -/
theorem groupCode_eq_ok_iff_split {p : Params} {final : Bool} {g : List Byte} (hg : g.length = 4) :
    groupCode p final g = .ok ↔
      ∃ u v, g = u ++ v ∧ GroupSplit p u v ∧ (v ≠ [] → final = true) := by
  rw [groupCode_eq_ok_iff]
  constructor
  · rintro ⟨hout, hk, hnopad, hfinal⟩
    refine ⟨g.take (4 - trailingPads p g), g.drop (4 - trailingPads p g), (List.take_append_drop _ g).symm,
      ⟨fun c hc => ?_, fun c hc => ?_, ?_⟩, ?_⟩
    · rcases (isOutsider_eq_false_iff p c).mp (hout c (List.mem_of_mem_take hc)) with hm | hp
      · exact hm
      · cases hp.symm.trans (hnopad c hc)
    · exact isPad_of_mem_trailing (hg ▸ hc)
    · rw [List.length_drop]; omega
    · refine fun hne => hfinal (Nat.pos_of_ne_zero fun h0 => hne ?_)
      rw [h0, List.drop_eq_nil_iff, hg]
  · rintro ⟨u, v, rfl, ⟨hu, hv, hle⟩, hfinal⟩
    have hnopad : ∀ c ∈ u, isPad p c = false := fun c hc => isPad_of_isMember (hu c hc)
    have hsum : u.length + v.length = 4 := by rw [← List.length_append, hg]
    have hk : trailingPads p (u ++ v) = v.length := trailingPads_append hnopad hv
    rw [hk]
    refine ⟨fun c hc => ?_, hle, fun c hc => ?_, fun hpos => hfinal (List.length_pos_iff.mp hpos)⟩
    · exact (isOutsider_eq_false_iff p c).mpr ((List.mem_append.mp hc).imp (hu c) (hv c))
    · rw [show 4 - v.length = u.length by omega, List.take_left' rfl] at hc
      exact hnopad c hc

/-- A final group is four symbols, members and then at most two PADs (R125). -/
theorem finalGroup_iff_split {p : Params} {g : List Byte} (hg : g.length = 4) :
    FinalGroup p g ↔ ∃ u v, g = u ++ v ∧ GroupSplit p u v := by
  constructor
  · rintro ⟨a, b, c, d, rfl, ha, hb, ⟨hc, hd⟩ | ⟨hc, hd⟩ | ⟨hc, hd⟩⟩
    · exact ⟨[a, b, c, d], [], rfl, by simp [GroupSplit, ha, hb, hc, hd]⟩
    · exact ⟨[a, b, c], [d], rfl, by simp [GroupSplit, ha, hb, hc, hd]⟩
    · exact ⟨[a, b], [c, d], rfl, by simp [GroupSplit, ha, hb, hc, hd]⟩
  · rintro ⟨u, v, rfl, hu, hv, hle⟩
    have hu4 : u.length = 4 - v.length := by rw [← hg, List.length_append]; omega
    match v, hle, hu4 with
    | [], _, hu4 =>
      obtain ⟨a, b, c, d, rfl⟩ := List.length_eq_four.mp hu4
      obtain ⟨ha, hb, hcd⟩ : _ ∧ _ ∧ _ ∧ _ := by simpa using hu
      exact ⟨a, b, c, d, rfl, ha, hb, .inl hcd⟩
    | [d], _, hu4 =>
      obtain ⟨a, b, c, rfl⟩ := List.length_eq_three.mp hu4
      obtain ⟨ha, hb, hc⟩ : _ ∧ _ ∧ _ := by simpa using hu
      exact ⟨a, b, c, d, rfl, ha, hb, .inr (.inl ⟨hc, by simpa using hv⟩)⟩
    | [c, d], _, hu4 =>
      obtain ⟨a, b, rfl⟩ := List.length_eq_two.mp hu4
      obtain ⟨ha, hb⟩ : _ ∧ _ := by simpa using hu
      exact ⟨a, b, c, d, rfl, ha, hb, .inr (.inr (by simpa using hv))⟩

/-- Settles O25: both sides split the group into members and at most two PADs. -/
theorem decgrpAcceptsExactly : Obligations.DecgrpAcceptsExactly := by
  intro s final
  rw [succeeded_execDecgrp, groupCode_eq_ok_iff_split rfl, finalGroup_iff_split rfl]
  constructor
  · rintro ⟨u, v, hg, hsplit, hfinal⟩
    by_cases hv : v = []
    · rw [hg, hv, List.append_nil]
      exact .inl hsplit.1
    · exact .inr ⟨hfinal hv, u, v, hg, hsplit⟩
  · rintro (hall | ⟨hfinal, u, v, hg, hsplit⟩)
    · exact ⟨lanes s.arg, [], (List.append_nil _).symm, ⟨hall, by simp⟩, fun hne => absurd rfl hne⟩
    · exact ⟨u, v, hg, hsplit, fun _ => hfinal⟩


/-! ## The lines of a host program (R91) -/

/-- An access put before the moves to come is the next one, and they stay. -/
theorem step_nextAccess (s : State) (a : Access) :
    step { s with turns := .access a :: s.turns } = .next (hostAccess a s) := step_access rfl

/-- A place beyond the window is refused by name (assumption log 13). -/
theorem HostSys.hostMove_outsideWindow {h : HostSys} {w p} (ho : p.offset h.block.params h.vars = none)
    (hl : (∃ v, h.prog[h.line]? = some (.wr w p v)) ∨ ∃ d, h.prog[h.line]? = some (.rd w p d)) :
    h.hostMove = .refused .outsideWindow := by
  rcases hl with ⟨v, hl⟩ | ⟨d, hl⟩ <;> simp only [HostSys.hostMove, hl, ho]

theorem HostSys.hostMove_assign {h : HostSys} {x e} (hl : h.prog[h.line]? = some (.assign x e)) :
    h.hostMove = .next { h.assign x (e.eval h.block.params h.vars) with line := h.line + 1 } := by
  simp only [HostSys.hostMove, hl]

/-- A read that returns data assigns it. -/
theorem HostSys.hostMove_rd_data {h : HostSys} {w p x off v} (hl : h.prog[h.line]? = some (.rd w p x))
    (ho : p.offset h.block.params h.vars = some off) (hv : (hostRead w off h.block).resp = some (.data v)) :
    h.hostMove =
      .next { HostSys.assign { h with block := hostRead w off h.block } x v with line := h.line + 1 } := by
  rcases HostSys.hostMove_rd hl ho with ⟨v', hv', e⟩ | ⟨hv', -⟩
  · cases hv.symm.trans hv'
    exact e
  · cases hv.symm.trans hv'

/-- A refused read assigns nothing (R58). -/
theorem HostSys.hostMove_rd_busError {h : HostSys} {w p x off} (hl : h.prog[h.line]? = some (.rd w p x))
    (ho : p.offset h.block.params h.vars = some off) (hv : (hostRead w off h.block).resp = some .busError) :
    h.hostMove = .next { h with block := hostRead w off h.block, line := h.line + 1 } := by
  rcases HostSys.hostMove_rd hl ho with ⟨v', hv', -⟩ | ⟨-, e⟩
  · cases hv.symm.trans hv'
  · exact e

/-- A condition that is 0 lets the next line follow. -/
theorem HostSys.hostMove_ifGoto_of_zero {h : HostSys} {c l} (hl : h.prog[h.line]? = some (.ifGoto c l))
    (hc : c.eval h.block.params h.vars = 0) : h.hostMove = .next { h with line := h.line + 1 } := by
  simp only [HostSys.hostMove, hl, hc]
  rfl

/-- A condition that is not 0 leads to the label's first line. -/
theorem HostSys.hostMove_ifGoto_of_ne_zero {h : HostSys} {c l m} (hl : h.prog[h.line]? = some (.ifGoto c l))
    (hm : LabelStands h.prog l m) (hc : c.eval h.block.params h.vars ≠ 0) :
    h.hostMove = .next { h with line := m } := by
  simp only [HostSys.hostMove, hl, bne_iff_ne, ne_eq, hc, not_false_eq_true, if_true, labelLine_eq hm]

theorem HostSys.hostMove_goto {h : HostSys} {l m} (hl : h.prog[h.line]? = some (.goto l))
    (hm : LabelStands h.prog l m) : h.hostMove = .next { h with line := m } := by
  simp only [HostSys.hostMove, hl, labelLine_eq hm]

theorem HostSys.hostMove_label {h : HostSys} {l} (hl : h.prog[h.line]? = some (.label l)) :
    h.hostMove = .next { h with line := h.line + 1 } := by
  simp only [HostSys.hostMove, hl]

/-! ## The values of host expressions (R10, R11, R91) -/

theorem hostBool_toNat (b : Bool) : (hostBool b).toNat = if b then 1 else 0 := by cases b <;> rfl

/-- The field `v[hi:lo]` as quotient and remainder (R10). -/
theorem hostField_toNat (v : Word) {hi lo : Nat} (hle : lo ≤ hi) (hlt : hi < 32) :
    (hostField v hi lo).toNat = v.toNat / 2 ^ lo % 2 ^ (hi + 1 - lo) := by
  rw [hostField, if_pos ⟨hle, hlt⟩, BitVec.toNat_setWidth, BitVec.extractLsb'_toNat, Nat.shiftRight_eq_div_pow]
  refine Nat.mod_eq_of_lt ((Nat.mod_lt _ (Nat.two_pow_pos _)).trans_le ?_)
  exact Nat.pow_le_pow_right (by decide) (by omega)

section
variable (a b : Word)

theorem HostOp.eval_and_toNat : (HostOp.and.eval a b).toNat = a.toNat &&& b.toNat := BitVec.toNat_and a b

theorem HostOp.eval_or_toNat : (HostOp.or.eval a b).toNat = a.toNat ||| b.toNat := BitVec.toNat_or a b

theorem HostOp.eval_add_toNat : (HostOp.add.eval a b).toNat = (a.toNat + b.toNat) % 2 ^ 32 := BitVec.toNat_add a b

theorem HostOp.eval_mul_toNat : (HostOp.mul.eval a b).toNat = a.toNat * b.toNat % 2 ^ 32 := BitVec.toNat_mul a b

theorem HostOp.eval_lt_toNat : (HostOp.lt.eval a b).toNat = if a.toNat < b.toNat then 1 else 0 := by
  simp [HostOp.eval, hostBool_toNat, BitVec.lt_def]

theorem HostOp.eval_eq_toNat : (HostOp.eq.eval a b).toNat = if a.toNat = b.toNat then 1 else 0 := by
  simp [HostOp.eval, hostBool_toNat, BitVec.toNat_inj]

theorem HostOp.eval_ne_toNat : (HostOp.ne.eval a b).toNat = if a.toNat = b.toNat then 0 else 1 := by
  simp [HostOp.eval, hostBool_toNat, BitVec.toNat_inj]

variable {b}

theorem HostOp.eval_shl_toNat (hb : b.toNat < 32) :
    (HostOp.shl.eval a b).toNat = a.toNat * 2 ^ b.toNat % 2 ^ 32 := by
  have hlt : b < 32 := hb
  rw [HostOp.eval, if_pos hlt, BitVec.shiftLeft_eq', BitVec.toNat_shiftLeft, Nat.shiftLeft_eq]

theorem HostOp.eval_shr_toNat (hb : b.toNat < 32) : (HostOp.shr.eval a b).toNat = a.toNat / 2 ^ b.toNat := by
  have hlt : b < 32 := hb
  rw [HostOp.eval, if_pos hlt, BitVec.ushiftRight_eq', BitVec.toNat_ushiftRight, Nat.shiftRight_eq_div_pow]

theorem HostOp.eval_div_toNat (hb : b.toNat ≠ 0) : (HostOp.div.eval a b).toNat = a.toNat / b.toNat := by
  have hne : b ≠ 0 := fun h => hb (by rw [h]; rfl)
  rw [HostOp.eval, if_neg hne, BitVec.toNat_udiv]

theorem HostOp.eval_mod_toNat (hb : b.toNat ≠ 0) : (HostOp.mod.eval a b).toNat = a.toNat % b.toNat := by
  have hne : b ≠ 0 := fun h => hb (by rw [h]; rfl)
  rw [HostOp.eval, if_neg hne, BitVec.toNat_umod]

end

/-- The sum in `ceil(e / 3)` does not wrap (assumption log 19). -/
theorem HostExpr.eval_ceilThird_toNat (p : Params) (vars : List (Nat × Option Word × Word)) (e : HostExpr) :
    ((HostExpr.ceilThird e).eval p vars).toNat = ((e.eval p vars).toNat + 2) / 3 := by
  have hlt := (e.eval p vars).isLt
  rw [HostExpr.eval, BitVec.toNat_ofNat]
  omega

/-- A code of the parameters as a host value (R91). -/
theorem code_toNat (c : Byte) : (c.setWidth 32).toNat = c.toNat :=
  BitVec.toNat_setWidth_of_le (by decide)

theorem readVar_cons_same (x : Nat) (k : Option Word) (v : Word) (rest : List (Nat × Option Word × Word)) :
    readVar ((x, k, v) :: rest) x k = v := by
  simp [readVar]

theorem readVar_cons_other {x y : Nat} {k j : Option Word} (v : Word) (rest : List (Nat × Option Word × Word))
    (h : y ≠ x ∨ k ≠ j) : readVar ((x, k, v) :: rest) y j = readVar rest y j := by
  have hne : ¬(x = y ∧ k = j) := by rintro ⟨rfl, rfl⟩; simp at h
  simp [readVar, hne]

/-- Settles O59: the host's move for each kind of line, then each operator on the numbers its values are. -/
theorem hostLinesAreAccesses : Obligations.HostLinesAreAccesses := by
  constructor
  · intro h r val hs hval
    rw [HostSys.step_host hs]
    refine ⟨fun w p off v hl ho => ?_, fun w p off d hl ho => ?_, fun w p ho hl => ?_, fun x e hl => ?_,
      fun x k e hl => ?_, fun c l m hl hm => ?_, fun l m hl hm => ?_, fun l hl => ?_⟩
    · rw [hval]
      exact ⟨_, step_nextAccess _ _, HostSys.hostMove_wr hl ho⟩
    · refine ⟨_, step_nextAccess _ _, fun v hv => ⟨?_, ?_⟩, fun hb => HostSys.hostMove_rd_busError hl ho hb⟩
      · rintro x rfl
        exact HostSys.hostMove_rd_data (h := { h with sched := r }) hl ho hv
      · rintro x k rfl
        have hk : k.eval (hostRead w off h.block).params h.vars = val k := by rw [hostRead_params, hval]
        rw [← hk]
        exact HostSys.hostMove_rd_data (h := { h with sched := r }) hl ho hv
    · exact HostSys.hostMove_outsideWindow ho hl
    · rw [hval]
      exact HostSys.hostMove_assign (h := { h with sched := r }) hl
    · rw [hval, hval]
      exact HostSys.hostMove_assign (h := { h with sched := r }) hl
    · split
      · next hc => exact HostSys.hostMove_ifGoto_of_zero hl ((hval c).symm.trans hc)
      · next hc => exact HostSys.hostMove_ifGoto_of_ne_zero hl hm (hval c ▸ hc)
    · exact HostSys.hostMove_goto hl hm
    · exact HostSys.hostMove_label hl
  · intro p vars val a b hval
    simp only [hval, HostExpr.eval]
    refine ⟨HostOp.eval_and_toNat _ _, HostOp.eval_or_toNat _ _,
      fun hb => ⟨HostOp.eval_shl_toNat _ hb, HostOp.eval_shr_toNat _ hb⟩,
      HostOp.eval_add_toNat _ _, HostOp.eval_mul_toNat _ _,
      fun hb => ⟨HostOp.eval_div_toNat _ hb, HostOp.eval_mod_toNat _ hb⟩,
      HostOp.eval_lt_toNat _ _, HostOp.eval_eq_toNat _ _, HostOp.eval_ne_toNat _ _,
      HostExpr.eval_ceilThird_toNat p vars a, fun hi lo => hostField_toNat _, fun _ => trivial,
      code_toNat _, code_toNat _, code_toNat _, ?_⟩
    rintro x k v rest rfl
    refine ⟨?_, ?_, fun y hy => ?_, fun y hy => ?_⟩
    · rintro rfl
      rw [readVar_cons_same]
    · intro hk
      rw [← hk, readVar_cons_same]
    · rw [readVar_cons_other v rest hy]
    · rw [readVar_cons_other v rest hy]

/-! ## The pseudo-instructions (R91) -/

/-- Under the eager schedule the host's move is an idle block's step. -/
theorem HostSys.step_of_idle {h g : HostSys} (hs : h.sched = []) (hb : h.block.status.busy = false)
    (hm : h.hostMove = .next g) : h.step = .next g := (HostSys.step_idle hs hb).trans hm

/-- The host's move is the step where the schedule names the host. -/
theorem HostSys.step_of_host {h g : HostSys} {r} (hs : h.sched = none :: r)
    (hm : HostSys.hostMove { h with sched := r } = .next g) : h.step = .next g := (HostSys.step_host hs).trans hm

theorem RunsLines.head {h : HostSys} {x ls} (hr : RunsLines h (x :: ls)) : h.prog[h.line]? = some x := by
  obtain ⟨-, -, hp⟩ := hr
  exact line_of_prefix (k := 0) hp rfl

theorem RunsLines.tail {h : HostSys} {x ls} (hr : RunsLines h (x :: ls)) {b : State}
    (hb : b.status.busy = false) : RunsLines { h with block := b, line := h.line + 1 } ls := by
  obtain ⟨hs, -, hp⟩ := hr
  exact ⟨hs, hb, prefix_tail hp⟩

theorem regPlace_offset (p : Params) (vars : List (Nat × Option Word × Word)) (r : Reg) :
    (Place.reg r).offset p vars = some (BitVec.ofNat 18 r.offset) := by cases r <;> rfl

/-- A line that writes a register is the write to that register. -/
theorem HostSys.hostMove_wr_reg {h : HostSys} {r v} (hl : h.prog[h.line]? = some (.wr .w32 (.reg r) v)) :
    h.hostMove = .next { h with
      block := { writeTarget .w32 (v.eval h.block.params h.vars) h.block (.reg r) with resp := some .written }
      line := h.line + 1 } := by
  rw [HostSys.hostMove_wr hl (regPlace_offset _ _ r), hostWrite, resolve_regOffset]

theorem RunsLines.step_wr_reg {h : HostSys} {r v ls} (hr : RunsLines h (.wr .w32 (.reg r) v :: ls)) :
    h.step = .next { h with
      block := { writeTarget .w32 (v.eval h.block.params h.vars) h.block (.reg r) with resp := some .written }
      line := h.line + 1 } := by
  have hl := hr.head
  obtain ⟨hs, hb, -⟩ := hr
  exact HostSys.step_of_idle hs hb (HostSys.hostMove_wr_reg hl)

/-- STATUS reads exactly, busy or not (R206). -/
theorem hostRead_status (s : State) :
    hostRead .w32 (BitVec.ofNat 18 Reg.status.offset) s = { s with resp := some (.data s.status.word) } := by
  rw [hostRead, resolve_regOffset]
  simp only [Target.isOutput, Bool.and_false]
  rfl

theorem HostSys.hostMove_rd_status {h : HostSys} {t}
    (hl : h.prog[h.line]? = some (.rd .w32 (.reg .status) (.var t))) :
    h.hostMove = .next { h with
      block := { h.block with resp := some (.data h.block.status.word) }
      vars := (t, none, h.block.status.word) :: h.vars, line := h.line + 1 } := by
  have hread := hostRead_status h.block
  rw [HostSys.hostMove_rd_data hl (regPlace_offset _ _ .status) (v := h.block.status.word) (by rw [hread]), hread]
  rfl

theorem hostField_zero (v : Word) : hostField v 0 0 = hostBool (v.getLsbD 0) := by
  apply BitVec.eq_of_toNat_eq
  rw [hostField_toNat v le_rfl (by decide), hostBool_toNat, BitVec.getLsbD, Nat.testBit_zero]
  rcases Nat.mod_two_eq_zero_or_one v.toNat with h | h <;> simp [h]

/-- The condition of `wait` on the STATUS just read is BUSY. -/
theorem waitCond_eval (p : Params) (vars : List (Nat × Option Word × Word)) (t : Nat) (s : Status) :
    (HostExpr.op .eq (.bits (.var t) 0 0) (.const 1)).eval p ((t, none, s.word) :: vars) = hostBool s.busy := by
  have hbit : s.word.getLsbD 0 = s.busy := s.word_getLsbD 0
  simp only [HostExpr.eval, readVar_cons_same, hostField_zero, hbit]
  cases s.busy <;> rfl

/-- The host's system after `wait` has read STATUS into its variable. -/
def HostSys.afterStatusRead (h : HostSys) (t : Nat) : HostSys := { h with
  vars := (t, none, h.block.status.word) :: h.vars
  block := { h.block with resp := some (.data h.block.status.word) } }

section
variable {h : HostSys} {l t : Nat}

/-- The first two lines of `wait`: its label, and the read of STATUS. -/
theorem HostSys.hostMove_wait_label (hp : pseudoWait l t <+: h.prog.drop h.line) :
    h.hostMove = .next { h with line := h.line + 1 } :=
  HostSys.hostMove_label (line_of_prefix (k := 0) hp rfl)

theorem HostSys.hostMove_wait_read (hp : pseudoWait l t <+: h.prog.drop h.line) :
    HostSys.hostMove { h with line := h.line + 1 } = .next { h.afterStatusRead t with line := h.line + 2 } :=
  HostSys.hostMove_rd_status (line_of_prefix (k := 1) hp rfl)

/-- The last line of `wait`: on with BUSY = 0. -/
theorem HostSys.hostMove_wait_done (hp : pseudoWait l t <+: h.prog.drop h.line)
    (hb : h.block.status.busy = false) :
    HostSys.hostMove { h.afterStatusRead t with line := h.line + 2 } =
      .next { h.afterStatusRead t with line := h.line + 3 } := by
  refine HostSys.hostMove_ifGoto_of_zero (line_of_prefix (k := 2) hp rfl) ?_
  exact (waitCond_eval _ _ t h.block.status).trans (by rw [hb]; rfl)

/-- The last line of `wait`: back to its label with BUSY = 1. -/
theorem HostSys.hostMove_wait_again (hp : pseudoWait l t <+: h.prog.drop h.line)
    (hb : h.block.status.busy = true) (hm : LabelStands h.prog l h.line) :
    HostSys.hostMove { h.afterStatusRead t with line := h.line + 2 } = .next (h.afterStatusRead t) := by
  refine HostSys.hostMove_ifGoto_of_ne_zero (line_of_prefix (k := 2) hp rfl) hm ?_
  intro h0
  have h1 := (waitCond_eval _ _ t h.block.status).symm.trans h0
  rw [hb] at h1
  cases h1

end

theorem run_three {h g₁ g₂ g₃ : HostSys} (h₁ : h.step = .next g₁) (h₂ : g₁.step = .next g₂)
    (h₃ : g₂.step = .next g₃) : h.run 3 = .next g₃ := by
  rw [HostSys.run_succ h₁, HostSys.run_succ h₂, HostSys.run_succ h₃, HostSys.run]

theorem run_wait_idle {h : HostSys} {l t} (hr : RunsLines h (pseudoWait l t)) :
    h.run 3 = .next { h.afterStatusRead t with line := h.line + 3 } := by
  obtain ⟨hs, hb, hp⟩ := hr
  exact run_three (HostSys.step_of_idle hs hb (HostSys.hostMove_wait_label hp))
    (HostSys.step_of_idle hs hb (HostSys.hostMove_wait_read hp))
    (HostSys.step_of_idle hs hb (HostSys.hostMove_wait_done hp hb))

theorem run_wait_busy {h : HostSys} {l t r} (hs : h.sched = none :: none :: none :: r)
    (hb : h.block.status.busy = true) (hp : pseudoWait l t <+: h.prog.drop h.line)
    (hm : LabelStands h.prog l h.line) :
    h.run 3 = .next { h.afterStatusRead t with sched := r } :=
  run_three
    (HostSys.step_of_host hs (HostSys.hostMove_wait_label (h := { h with sched := none :: none :: r }) hp))
    (HostSys.step_of_host rfl (HostSys.hostMove_wait_read (h := { h with sched := none :: r }) hp))
    (HostSys.step_of_host rfl (HostSys.hostMove_wait_again (h := { h with sched := r }) hp hb hm))

/-- The block after an idle one has accepted a command (R204). -/
def State.issued (s : State) (i : Instr) : State := { s.accept (encode i) with resp := some .written }

theorem step_issue {h : HostSys} {i ls} (hr : RunsLines h (pseudoIssue i ++ ls)) :
    h.step = .next { h with line := h.line + 1, block := h.block.issued i } := by
  have hstep := RunsLines.step_wr_reg hr
  obtain ⟨-, hb, -⟩ := hr
  simp only [writeTarget, hb] at hstep
  exact hstep

theorem exec_busy_false {i : Instr} {s t : State} (he : exec i s = .next t) : t.status.busy = false := by
  cases hu : isUnit i with
  | true =>
    obtain ⟨r, c, rfl⟩ := exec_unit_next hu he
    rfl
  | false =>
    rcases exec_frame_next hu he with ⟨c, rfl⟩ | ⟨-, r, -, rfl⟩
    · rfl
    · cases r <;> rfl

theorem blockStep_command {s : State} {i : Instr} (hb : s.status.busy = true) (hd : decode s.cmd = .ok i) :
    blockStep s = exec i s := by
  simp only [blockStep, hb, hd, if_true]

/-- `run` is `issue`, BLOCK's step, and `wait` on the block at rest. -/
theorem run_pseudoRun {h : HostSys} {i l t} {u : State} (hi : i.wellFormed = true)
    (hr : RunsLines h (pseudoRun i l t)) (hu : exec i (h.block.issued i) = .next u) :
    h.run 5 = .next { HostSys.afterStatusRead { h with block := u } t with line := h.line + 4 } := by
  have hwait : RunsLines { h with block := u, line := h.line + 1 } (pseudoWait l t) :=
    RunsLines.tail hr (exec_busy_false hu)
  have hblock : blockStep (h.block.issued i) = .next u :=
    (blockStep_command (s := h.block.issued i) rfl (decode_encode hi)).trans hu
  have hstep : HostSys.step { h with block := h.block.issued i, line := h.line + 1 } =
      .next { h with block := u, line := h.line + 1 } := HostSys.step_busy hwait.1 rfl hblock
  rw [HostSys.run_succ (step_issue hr), HostSys.run_succ hstep]
  exact run_wait_idle hwait

/-- A write to STATUS by an idle host acknowledges (R28, R186). -/
theorem step_writeStatus {h : HostSys} {v : Word}
    (hr : RunsLines h [.wr .w32 (.reg .status) (.const v)]) :
    h.step = .next { h with line := h.line + 1, block := { h.block with
      resp := some .written, status := h.block.status.writeOneToClear v } } := hr.step_wr_reg

/-! ### `put` and `fill` -/

/-- `buffer` names the CAP places of a buffer that stands at `base` (R51). -/
def NamesBuffer (p : Params) (buffer : HostExpr → Place) (base : Nat) : Prop :=
  ∀ vars k, k < p.cap → ∃ off, (buffer (.const (BitVec.ofNat 32 k))).offset p vars = some off ∧
    off.toNat = base + k ∧ BufferAccess p.cap .w8 off

theorem namesBuffer_of_offset {p : Params} {buffer : HostExpr → Place} {base : Nat} (hcap : p.cap ≤ 65536)
    (hbase : base = ibufBase ∨ base = obufBase)
    (ho : ∀ vars k, (buffer (.const k)).offset p vars =
      if base + k.toNat < 0x40000 then some (BitVec.ofNat 18 (base + k.toNat)) else none) :
    NamesBuffer p buffer base := by
  intro vars k hk
  rw [ibufBase, obufBase] at hbase
  have hk32 : (BitVec.ofNat 32 k).toNat = k := Nat.mod_eq_of_lt (by omega)
  have hoff : (BitVec.ofNat 18 (base + k)).toNat = base + k := Nat.mod_eq_of_lt (by omega)
  refine ⟨BitVec.ofNat 18 (base + k), ?_, hoff, ?_⟩
  · rw [ho, hk32, if_pos (by omega)]
  · rw [BufferAccess, hoff, Width.bytes]
    omega

theorem namesBuffer_ibuf {p : Params} (hcap : p.cap ≤ 65536) : NamesBuffer p .ibuf ibufBase :=
  namesBuffer_of_offset hcap (.inl rfl) fun _ _ => rfl

theorem namesBuffer_obuf {p : Params} (hcap : p.cap ≤ 65536) : NamesBuffer p .obuf obufBase :=
  namesBuffer_of_offset hcap (.inr rfl) fun _ _ => rfl

/-- Lines that write `xs` byte by byte to a buffer, from its place `k` on. -/
def storeLines (buffer : HostExpr → Place) (k : Nat) (xs : List HostExpr) : List HostStmt :=
  (xs.zipIdx k).map fun x => .wr .w8 (buffer (.const (BitVec.ofNat 32 x.2))) x.1

theorem pseudoPut_eq_storeLines (xs : List HostExpr) : pseudoPut xs = storeLines .ibuf 0 xs := rfl

theorem pseudoFill_eq_storeLines (v : HostExpr) (k : Nat) :
    pseudoFill v k = storeLines .obuf 0 (List.replicate k v) := by
  apply List.ext_getElem
  · simp [pseudoFill, storeLines]
  · intro j hj hj'
    simp [pseudoFill, storeLines]

/-- The bytes such lines store: the low 8 bits of each value (assumption log 16). -/
def HostSys.bytesOf (h : HostSys) (xs : List HostExpr) : List Byte :=
  xs.map fun x => (x.eval h.block.params h.vars).setWidth 8

theorem HostSys.bytesOf_getD (h : HostSys) {xs : List HostExpr} {k : Nat} (hk : k < xs.length) :
    (h.bytesOf xs).getD k 0 = (xs[k].eval h.block.params h.vars).setWidth 8 := by
  simp [HostSys.bytesOf, hk]

/-- The host's system after it has stored `xs` from window offset `a` on, with the latest response `x`. -/
def HostSys.afterStores (h : HostSys) (a : Nat) (xs : List HostExpr) (x : Option Response) : HostSys :=
  { h with
    line := h.line + xs.length
    block := { h.block.writeBytes a (h.bytesOf xs) with resp := x } }

theorem HostSys.afterStores_cons (h : HostSys) (a : Nat) (e : HostExpr) (xs : List HostExpr)
    (x y : Option Response) :
    (h.afterStores a [e] y).afterStores (a + 1) xs x = h.afterStores a (e :: xs) x := by
  have hline : h.line + 1 + xs.length = h.line + (xs.length + 1) := by omega
  simp only [HostSys.afterStores, List.length_cons, List.length_nil, hline]
  rfl

theorem hostWrite_byte_idle {s : State} {off : Offset} {v : Word} (hb : s.status.busy = false)
    (hcap : s.params.cap ≤ 65536) (ha : BufferAccess s.params.cap .w8 off) :
    hostWrite .w8 off v s = { s.writeBytes off.toNat [v.setWidth 8] with resp := some .written } := by
  obtain ⟨t, hr, -, hw⟩ := resolve_buffer_bytes hcap ha
  rw [hostWrite, hr]
  simp only [hw, hb]
  rfl

/-- Byte stores one after another, by induction on the values: each leaves the block idle and the host's values
as they were. -/
theorem run_storeLines {buffer : HostExpr → Place} {base : Nat} (xs : List HostExpr) (k : Nat) (h : HostSys)
    (hcap : h.block.params.cap ≤ 65536) (hbuf : NamesBuffer h.block.params buffer base)
    (hr : RunsLines h (storeLines buffer k xs)) (hfit : k + xs.length ≤ h.block.params.cap) :
    ∃ x, h.run xs.length = .next (h.afterStores (base + k) xs x) := by
  induction xs generalizing k h with
  | nil => exact ⟨h.block.resp, rfl⟩
  | cons e xs ih =>
    rw [List.length_cons] at hfit
    obtain ⟨off, ho, hoff, ha⟩ := hbuf h.vars k (by omega)
    have hl := hr.head
    have htail {b : State} := hr.tail (b := b)
    obtain ⟨hs, hb, -⟩ := hr
    have hstep : h.step = .next (h.afterStores (base + k) [e] (some .written)) := by
      rw [HostSys.step_idle hs hb, HostSys.hostMove_wr hl ho, hostWrite_byte_idle hb hcap ha, hoff]
      rfl
    obtain ⟨x, hrun⟩ := ih (k + 1) (h.afterStores (base + k) [e] (some .written)) hcap hbuf (htail hb)
      (show k + 1 + xs.length ≤ h.block.params.cap by omega)
    refine ⟨x, ?_⟩
    rw [List.length_cons, HostSys.run_succ hstep, hrun, ← Nat.add_assoc, HostSys.afterStores_cons]

/-- The bytes after `storeLines` from a buffer's first place on: the values' low bytes there, the old ones elsewhere. -/
theorem afterStores_readByte (h : HostSys) (base : Nat) (xs : List HostExpr) (x : Option Response) :
    (∀ k (hk : k < xs.length), (h.afterStores base xs x).block.readByte (base + k) =
      (xs[k].eval h.block.params h.vars).setWidth 8) ∧
    ∀ a, a < base ∨ base + xs.length ≤ a → (h.afterStores base xs x).block.readByte a = h.block.readByte a := by
  have hlen : (h.bytesOf xs).length = xs.length := List.length_map _
  refine ⟨fun k hk => ?_, fun a ha => ?_⟩
  · calc (h.block.writeBytes base (h.bytesOf xs)).readByte (base + k)
        = (h.bytesOf xs).getD (base + k - base) 0 := by rw [readByte_writeBytes, if_pos (by omega)]
      _ = (xs[k].eval h.block.params h.vars).setWidth 8 := by rw [Nat.add_sub_cancel_left, h.bytesOf_getD hk]
  · exact readByte_writeBytes_outside h.block (by rwa [hlen])

/-- Settles O60: one run lemma for each pseudo-instruction; `put` and `fill` are the same stores in two buffers. -/
theorem pseudoInstructionsRun : Obligations.PseudoInstructionsRun := by
  intro h
  refine ⟨fun i _ hr => step_issue (ls := []) hr, fun l t hr => run_wait_idle hr,
    fun l t r hs hb hp hm => run_wait_busy hs hb hp hm, fun i l t hi hr => ?_, fun hr => ?_, fun hr => ?_,
    fun xs hr hplaces hfit => ?_, fun v k hr hplaces hfit => ?_⟩
  · obtain ⟨u, hu⟩ := exec_next i (h.block.issued i)
    exact ⟨u, hu, run_pseudoRun hi hr hu⟩
  · rw [step_writeStatus hr]
    simp [Status.writeOneToClear]
  · rw [step_writeStatus hr]
    simp [Status.writeOneToClear]
  · obtain ⟨-, hcap, -⟩ := hplaces
    rw [pseudoPut_eq_storeLines] at hr
    obtain ⟨x, hrun⟩ := run_storeLines xs 0 h hcap (namesBuffer_ibuf hcap) hr (by omega)
    obtain ⟨hin, hout⟩ := afterStores_readByte h ibufBase xs x
    exact ⟨_, hrun, rfl, hin, hout⟩
  · obtain ⟨-, hcap, -⟩ := hplaces
    rw [pseudoFill_eq_storeLines] at hr
    obtain ⟨x, hrun⟩ := run_storeLines (List.replicate k v) 0 h hcap (namesBuffer_obuf hcap) hr
      (by simpa using hfit)
    obtain ⟨hin, hout⟩ := afterStores_readByte h obufBase (List.replicate k v) x
    simp only [HostSys.afterStores, List.length_replicate] at hrun hin hout
    exact ⟨_, hrun, rfl, fun j hj => (hin j hj).trans (by rw [List.getElem_replicate]), hout⟩

end Sys2Proof.Machine
end

section
/-! PROOFS. Family 40_alphabet: what the inverse lookup answers for each kind of code; how many codes there are of each
kind; RES after SYMAT and CLASSIFY. -/

namespace Sys2Proof.Machine

/-! ## The inverse lookup, code by code (R101) -/

/-- The entries of the ROM are distinct, so the lookup has one index to find (R25). -/
theorem classify_of_symbolAt {p : Params} {c : Byte} {i : Index} (hp : p.SymbolsOk) (h : symbolAt p i = c) :
    classify p c = ⟨i, false, false⟩ := by
  obtain ⟨hinj, -⟩ := romInjectiveWithoutPad p hp
  rcases classify_cases p c with ⟨j, hj, e⟩ | ⟨hnone, -⟩ | ⟨hnone, -⟩
  · rw [e, hinj j i (hj.trans h.symm)]
  · exact absurd h (hnone i)
  · exact absurd h (hnone i)

/-- PAD is no entry of the ROM (R7). -/
theorem classify_pad {p : Params} (hp : p.SymbolsOk) : classify p p.pad = ⟨0, true, true⟩ := by
  obtain ⟨-, hpad⟩ := romInjectiveWithoutPad p hp
  rcases classify_cases p p.pad with ⟨i, hi, -⟩ | ⟨-, -, e⟩ | ⟨-, hne, -⟩
  · exact absurd hi (hpad i)
  · exact e
  · exact absurd rfl hne

theorem classify_of_outsider {p : Params} {c : Byte} (h : ∀ i, symbolAt p i ≠ c) (hc : c ≠ p.pad) :
    classify p c = ⟨0, true, false⟩ := by
  rcases classify_cases p c with ⟨i, hi, -⟩ | ⟨-, hpad, -⟩ | ⟨-, -, e⟩
  · exact absurd hi (h i)
  · exact absurd hpad hc
  · exact e

theorem classify_idx_of_symbolAt {p : Params} {c : Byte} {i : Index} (hp : p.SymbolsOk) (h : symbolAt p i = c) :
    (classify p c).idx = i ∧ isMember p c = true := by
  simp [isMember, classify_of_symbolAt hp h]

/-- The closed form of R101 for a range of ALNUM: `n` is the place in the ROM that holds the code. -/
theorem classify_idx_toNat {p : Params} {c : Byte} {n : Nat} (hp : p.SymbolsOk) (hn : n < 64)
    (h : ∀ i : Index, i.toNat = n → (symbolAt p i).toNat = c.toNat) :
    (classify p c).idx.toNat = n ∧ isMember p c = true := by
  have hn : (BitVec.ofNat 6 n).toNat = n := Nat.mod_eq_of_lt hn
  obtain ⟨hidx, hmem⟩ := classify_idx_of_symbolAt hp (BitVec.eq_of_toNat_eq (h _ hn))
  exact ⟨hidx ▸ hn, hmem⟩

theorem isPad_iff_eq_pad {p : Params} {c : Byte} (hp : p.SymbolsOk) : isPad p c = true ↔ c = p.pad := by
  rw [isPad_iff]
  refine and_iff_left_of_imp ?_
  rintro rfl
  exact (romInjectiveWithoutPad p hp).2

/-- Settles O8: the three arms, and then each range of codes at the index that the ROM's closed form names. -/
theorem classifyTriple : Obligations.ClassifyTriple := by
  intro p c hp
  refine ⟨fun i => classify_of_symbolAt hp, ?_, classify_of_outsider, fun hlo hhi => ?_, fun hlo hhi => ?_,
    fun hlo hhi => ?_, ?_, ?_, ?_, isPad_iff_eq_pad hp, isMember_iff p c⟩
  · rintro rfl
    exact classify_pad hp
  · refine classify_idx_toNat hp (by omega) fun i hi => ?_
    rw [symbolAt_toNat_upper p (by omega)]
    omega
  · refine classify_idx_toNat hp (by omega) fun i hi => ?_
    rw [symbolAt_toNat_lower p (by omega) (by omega)]
    omega
  · refine classify_idx_toNat hp (by omega) fun i hi => ?_
    rw [symbolAt_toNat_digit p (by omega) (by omega)]
    omega
  · rintro rfl
    exact classify_idx_of_symbolAt hp (symbolAt_62 p)
  · rintro rfl
    exact classify_idx_of_symbolAt hp (symbolAt_63 p)
  · cases hnf : (classify p c).nf <;> simp [indexOf, notFound, hnf]

/-! ## The five laws (R102) -/

theorem indexOf_symbolAt {p : Params} (hp : p.SymbolsOk) (i : Index) : indexOf p (symbolAt p i) = i.setWidth 7 := by
  simp [indexOf, classify_of_symbolAt hp rfl]

theorem symbolAt_indexOf {p : Params} {c : Byte} (h : indexOf p c ≠ notFound) :
    symbolAt p ((indexOf p c).setWidth 6) = c := by
  rcases classify_cases p c with ⟨i, hi, e⟩ | ⟨-, -, e⟩ | ⟨-, -, e⟩
  · have hback : (indexOf p c).setWidth 6 = i := by simp [indexOf, e]
    rw [hback]
    exact hi
  · exact absurd (by simp [indexOf, e]) h
  · exact absurd (by simp [indexOf, e]) h

/-- Both `allIndexes` and `allCodes` are such a list. -/
theorem nodup_map_ofNat_range (w : Nat) : ((List.range (2 ^ w)).map (BitVec.ofNat w)).Nodup := by
  refine List.nodup_range.map_on fun a ha b hb h => ?_
  rw [List.mem_range] at ha hb
  simpa [Nat.mod_eq_of_lt, ha, hb] using congrArg BitVec.toNat h

theorem nodup_allIndexes : allIndexes.Nodup := nodup_map_ofNat_range 6

theorem nodup_allCodes : allCodes.Nodup := nodup_map_ofNat_range 8

theorem mem_allCodes (c : Byte) : c ∈ allCodes := by
  simp only [allCodes, List.mem_map, List.mem_range]
  exact ⟨c.toNat, c.isLt, by simp⟩

/-- The members among the codes are the entries of the ROM, each once. -/
theorem filter_isMember_perm {p : Params} (hp : p.SymbolsOk) :
    (allCodes.filter (isMember p)).Perm (allIndexes.map (symbolAt p)) := by
  obtain ⟨hinj, -⟩ := romInjectiveWithoutPad p hp
  refine (List.perm_ext_iff_of_nodup (nodup_allCodes.filter _) (nodup_allIndexes.map hinj)).mpr fun c => ?_
  simp [mem_allCodes, mem_allIndexes, isMember_iff, symbolAt]

theorem countP_isMember {p : Params} (hp : p.SymbolsOk) : allCodes.countP (isMember p) = 64 := by
  rw [List.countP_eq_length_filter, (filter_isMember_perm hp).length_eq]
  simp [allIndexes]

theorem countP_isPad {p : Params} (hp : p.SymbolsOk) : allCodes.countP (isPad p) = 1 := by
  calc allCodes.countP (isPad p)
      = allCodes.count p.pad := List.countP_congr fun c _ => by simp [isPad_iff_eq_pad hp]
    _ = 1 := List.count_eq_one_of_mem nodup_allCodes (mem_allCodes _)

/-- The codes by kind: a code is a member, or PAD, or an outsider, and never two of them. -/
theorem countP_kinds (p : Params) (l : List Byte) :
    l.length = l.countP (isMember p) + l.countP (isPad p) + l.countP (isOutsider p) := by
  induction l with
  | nil => rfl
  | cons c l ih =>
    simp only [List.length_cons, List.countP_cons, isOutsider]
    by_cases hm : isMember p c = true
    · simp [hm, isPad_of_isMember hm, ih]
      omega
    · by_cases hpad : isPad p c = true
      · simp [hm, hpad, ih]
        omega
      · simp [hm, hpad, ih]
        omega

theorem countP_isOutsider {p : Params} (hp : p.SymbolsOk) : allCodes.countP (isOutsider p) = 191 := by
  have hkinds := countP_kinds p allCodes
  have hlen : allCodes.length = 256 := by simp [allCodes]
  rw [countP_isMember hp, countP_isPad hp] at hkinds
  omega

/-- An outsider, read from the triple. -/
theorem isOutsider_eq (p : Params) : isOutsider p = fun c => (classify p c).nf && !(classify p c).pad := by
  funext c
  simp [isOutsider, isMember, isPad]

/-- Settles O9: the codes are counted by kind. -/
theorem alphabetLaws : Obligations.AlphabetLaws := by
  intro p hp
  have hpad := classify_pad hp
  refine ⟨indexOf_symbolAt hp, fun c => symbolAt_indexOf, ⟨by simp [indexOf, hpad], by simp [isPad, hpad]⟩,
    ⟨countP_isMember hp, countP_isPad hp, ?_⟩, classify_of_symbolAt hp rfl, classify_of_symbolAt hp rfl⟩
  rw [← isOutsider_eq]
  exact countP_isOutsider hp

/-! ## SYMAT and CLASSIFY (R103, R104) -/

/-- Settles O10: the command writes RES and completes. -/
theorem symatCompletes : Obligations.SymatCompletes := ⟨rfl, fun _ => rfl⟩

/-- CLASSIFY's result bit by bit (R104). -/
theorem classifyResult_getLsbD (idx : Index) (nf pad : Bool) (k : Nat) :
    (classifyResult idx nf pad).getLsbD k =
      if k < 6 then idx.getLsbD k else if k = 6 then nf else if k = 7 then pad else false := by
  simp only [classifyResult, BitVec.getLsbD_setWidth, BitVec.getLsbD_append, BitVec.getLsbD_ofBool]
  grind

theorem classifyResult_idx (idx : Index) (nf pad : Bool) :
    (classifyResult idx nf pad).extractLsb' 0 6 = idx := by
  apply BitVec.eq_of_getLsbD_eq
  intro k hk
  simp [classifyResult_getLsbD, hk]

theorem classifyResult_high (idx : Index) (nf pad : Bool) :
    (classifyResult idx nf pad).extractLsb' 8 24 = 0 := by
  apply BitVec.eq_of_getLsbD_eq
  intro k hk
  have h6 : ¬8 + k < 6 := by omega
  have h7 : 8 + k ≠ 6 ∧ 8 + k ≠ 7 := by omega
  simp [classifyResult_getLsbD, h6, h7]

theorem classifyResult_member (i : Index) : classifyResult i false false = i.setWidth 32 := by
  apply BitVec.eq_of_getLsbD_eq
  intro k hk
  rw [classifyResult_getLsbD, BitVec.getLsbD_setWidth]
  by_cases h6 : k < 6
  · simp [h6, hk]
  · simp [h6, BitVec.getLsbD_of_ge i k (by omega)]

/-- RES after CLASSIFY of the code `c`. -/
def classifyWord (p : Params) (c : Byte) : Word :=
  classifyResult (classify p c).idx (classify p c).nf (classify p c).pad

theorem exec_classify (s : State) :
    exec .classify s = .next ((s.setRes (classifyWord s.params (s.arg.extractLsb' 0 8))).complete .ok) := rfl

theorem classifyWord_indexOf (p : Params) (c : Byte) : (classifyWord p c).extractLsb' 0 7 = indexOf p c := by
  rcases classify_cases p c with ⟨i, -, e⟩ | ⟨-, -, e⟩ | ⟨-, -, e⟩
  · rw [classifyWord, indexOf, e, classifyResult_member]
    exact BitVec.eq_of_toNat_eq (by simp)
  · rw [classifyWord, indexOf, e]
    rfl
  · rw [classifyWord, indexOf, e]
    rfl

/-- Settles O11: the fields of RES by `classifyResult`, its values by the three arms of `classify`. -/
theorem classifyCompletes : Obligations.ClassifyCompletes := by
  refine ⟨rfl, fun s c hp hc => ?_⟩
  have hnf : (classifyWord s.params c).getLsbD 6 = (classify s.params c).nf := classifyResult_getLsbD _ _ _ 6
  refine ⟨classifyWord s.params c, by rw [exec_classify, ← hc]; rfl, classifyResult_idx _ _ _, hnf,
    classifyResult_getLsbD _ _ _ 7, classifyResult_high _ _ _, fun hpad => ?_, fun hpad hmem => ?_, fun i hi => ?_,
    classifyWord_indexOf _ _, by rw [hnf, isMember, Bool.not_eq_true']⟩
  · rw [hpad, classifyWord, classify_pad hp]
    rfl
  · have hnone : ∀ i, symbolAt s.params i ≠ c := fun i hi => by
      simp [(isMember_iff s.params c).mpr ⟨i, hi⟩] at hmem
    rw [classifyWord, classify_of_outsider hnone hpad]
    rfl
  · rw [classifyWord, classify_of_symbolAt hp hi, classifyResult_member]

end Sys2Proof.Machine
end

section
/-! PROOFS. Family 41_validator: the trailing run; the texts of members and then at most two PADs, which are those
the validator accepts, those of R125 and those whose groups all pass; VALIDATE. -/

namespace Sys2Proof.Machine

/-! ## The trailing run (R121) -/

theorem trailingPads_le_length (p : Params) (t : List Byte) : trailingPads p t ≤ t.length := by
  simpa [trailingPads] using (List.takeWhile_sublist (isPad p) (l := t.reverse)).length_le

theorem trailingPads_append_pads {p : Params} (u : List Byte) {v : List Byte} (hv : ∀ c ∈ v, isPad p c = true) :
    trailingPads p (u ++ v) = v.length + trailingPads p u := by
  have hrev : ∀ c ∈ v.reverse, isPad p c = true := by simpa using hv
  simp only [trailingPads, List.reverse_append, List.takeWhile_append_of_pos hrev, List.length_append,
    List.length_reverse]

theorem le_trailingPads_iff (p : Params) (t : List Byte) (k : Nat) :
    k ≤ trailingPads p t ↔ k ≤ t.length ∧ ∀ c ∈ t.drop (t.length - k), isPad p c = true := by
  constructor
  · intro h
    exact ⟨h.trans (trailingPads_le_length p t),
      fun c hc => isPad_of_mem_trailing (List.drop_subset_drop_left t (by omega) hc)⟩
  · rintro ⟨hk, hpads⟩
    have happend := trailingPads_append_pads (t.take (t.length - k)) hpads
    rw [List.take_append_drop, List.length_drop] at happend
    omega

/-- Settles O12: the elements of the suffix are those at the last `k` places. -/
theorem trailingRunIsLongest : Obligations.TrailingRunIsLongest := by
  intro p t k
  rw [le_trailingPads_iff]
  refine and_congr_right fun _ => ⟨fun h i hi hle => h _ ?_, fun h c hc => ?_⟩
  · exact List.mem_drop_iff_getElem.mpr ⟨i - (t.length - k), by omega, by simp [Nat.add_sub_cancel' hle]⟩
  · obtain ⟨j, hj, rfl⟩ := List.mem_drop_iff_getElem.mp hc
    exact h _ _ (Nat.le_add_right _ _)

/-! ## Members and then at most two PADs -/

/-- A text that is members and then at most two PADs. -/
def SplitText (p : Params) (t : List Byte) : Prop := ∃ u v, t = u ++ v ∧ GroupSplit p u v

theorem splitText_nil (p : Params) : SplitText p [] := ⟨[], [], rfl, by simp [GroupSplit]⟩

theorem SplitText.prepend_members {p : Params} {g t : List Byte} (hg : ∀ c ∈ g, isMember p c = true)
    (ht : SplitText p t) : SplitText p (g ++ t) := by
  obtain ⟨u, v, rfl, hu, hv⟩ := ht
  exact ⟨g ++ u, v, (List.append_assoc g u v).symm, fun c hc => (List.mem_append.mp hc).elim (hg c) (hu c), hv⟩

/-- More than two symbols at the end hold all the PADs. -/
theorem splitText_append_iff {p : Params} {g t : List Byte} (ht : 2 < t.length) :
    SplitText p (g ++ t) ↔ (∀ c ∈ g, isMember p c = true) ∧ SplitText p t := by
  constructor
  · rintro ⟨u, v, he, hu, hv, hle⟩
    have hlen := congrArg List.length he
    simp only [List.length_append] at hlen
    obtain ⟨w, rfl⟩ : g <+: u :=
      List.prefix_of_prefix_length_le (List.prefix_append g t) (he ▸ List.prefix_append u v) (by omega)
    rw [List.append_assoc, List.append_cancel_left_eq] at he
    exact ⟨fun c hc => hu c (List.mem_append_left w hc), w, v, he,
      fun c hc => hu c (List.mem_append_right g hc), hv, hle⟩
  · rintro ⟨hg, hsplit⟩
    exact hsplit.prepend_members hg

/-- The validator's checks after the length, taken together (R120). -/
theorem splitText_iff (p : Params) (t : List Byte) :
    SplitText p t ↔ (∀ c ∈ t, isOutsider p c = false) ∧ trailingPads p t ≤ 2 ∧
      ∀ c ∈ t.take (t.length - trailingPads p t), isPad p c = false := by
  constructor
  · rintro ⟨u, v, rfl, hu, hv, hle⟩
    have hnopad : ∀ c ∈ u, isPad p c = false := fun c hc => isPad_of_isMember (hu c hc)
    rw [trailingPads_append hnopad hv, List.length_append, Nat.add_sub_cancel, List.take_left' rfl]
    exact ⟨fun c hc => (isOutsider_eq_false_iff p c).mpr ((List.mem_append.mp hc).imp (hu c) (hv c)), hle, hnopad⟩
  · rintro ⟨hout, hle, hnopad⟩
    have hlen := trailingPads_le_length p t
    refine ⟨_, _, (List.take_append_drop (t.length - trailingPads p t) t).symm, fun c hc => ?_,
      fun c => isPad_of_mem_trailing, by rw [List.length_drop]; omega⟩
    refine ((isOutsider_eq_false_iff p c).mp (hout c (List.mem_of_mem_take hc))).resolve_right ?_
    simp [hnopad c hc]

/-- The four answers of the validator, each with when it is given (R120, R122). -/
theorem validate_cases (p : Params) (t : List Byte) :
    (t.length % 4 ≠ 0 ∧ validate p t = .invalidLength) ∨
    (t.length % 4 = 0 ∧ (∃ c ∈ t, isOutsider p c = true) ∧ validate p t = .invalidSymbol) ∨
    (t.length % 4 = 0 ∧ (∀ c ∈ t, isOutsider p c = false) ∧ ¬SplitText p t ∧ validate p t = .misplacedPadding) ∨
    (t.length % 4 = 0 ∧ SplitText p t ∧ validate p t = .ok) := by
  unfold validate
  rw [splitText_iff]
  split_ifs with hlen hout hrun hpad <;> simp_all

theorem validate_eq_ok_iff (p : Params) (t : List Byte) :
    validate p t = .ok ↔ t.length % 4 = 0 ∧ SplitText p t := by
  rcases validate_cases p t with ⟨hl, e⟩ | ⟨-, ⟨c, hc, ho⟩, e⟩ | ⟨-, -, hs, e⟩ | ⟨hl, hs, e⟩ <;> rw [e]
  · simp [hl]
  · have hno : ¬SplitText p t := fun hs => by simpa [ho] using ((splitText_iff p t).mp hs).1 c hc
    simp [hno]
  · simp [hs]
  · simp [hl, hs]

/-! ## The language of R125 -/

theorem finalGroup_length {p : Params} {g : List Byte} (h : FinalGroup p g) : g.length = 4 := by
  obtain ⟨a, b, c, d, rfl, -⟩ := h
  rfl

theorem finalGroup_iff {p : Params} {g : List Byte} (hg : g.length = 4) : FinalGroup p g ↔ SplitText p g :=
  finalGroup_iff_split hg

theorem validText_iff (p : Params) (t : List Byte) : ValidText p t ↔ t.length % 4 = 0 ∧ SplitText p t := by
  constructor
  · rintro (rfl | ⟨body, g, rfl, hlen, hbody, hg⟩)
    · exact ⟨rfl, splitText_nil p⟩
    · have hg4 := finalGroup_length hg
      exact ⟨by rw [List.length_append]; omega, ((finalGroup_iff hg4).mp hg).prepend_members hbody⟩
  · rintro ⟨hlen, hsplit⟩
    rcases Nat.eq_zero_or_pos t.length with h0 | hpos
    · exact .inl (List.length_eq_zero_iff.mp h0)
    · have hg4 : (t.drop (t.length - 4)).length = 4 := by rw [List.length_drop]; omega
      rw [← List.take_append_drop (t.length - 4) t, splitText_append_iff (by omega)] at hsplit
      exact .inr ⟨_, _, (List.take_append_drop (t.length - 4) t).symm, by rw [List.length_take]; omega, hsplit.1,
        (finalGroup_iff hg4).mpr hsplit.2⟩

/-- Settles O14: both sides are the whole groups of members and then at most two PADs. -/
theorem validatorLanguage : Obligations.ValidatorLanguage := fun p t =>
  (validate_eq_ok_iff p t).trans (validText_iff p t).symm

theorem isOutsider_iff (p : Params) (c : Byte) : isOutsider p c = true ↔ Outsider p c := by
  simp [isOutsider]

/-- Settles O13: of the four answers each clause's premises leave one. -/
theorem validatorPriority : Obligations.ValidatorPriority := by
  intro p t
  simp only [← isOutsider_iff, validText_iff]
  rcases validate_cases p t with ⟨hl, e⟩ | ⟨hl, ⟨c, hc, ho⟩, e⟩ | ⟨hl, hout, -, e⟩ | ⟨hl, hs, e⟩ <;> rw [e]
  · exact ⟨fun _ => rfl, fun h => absurd h hl, fun h => absurd h hl⟩
  · exact ⟨absurd hl, fun _ _ => rfl, fun _ hno => absurd ho (hno c hc)⟩
  · exact ⟨absurd hl, fun _ ⟨c, hc, ho⟩ => absurd ho (by simp [hout c hc]), fun _ _ _ => rfl⟩
  · obtain ⟨hout, -⟩ := (splitText_iff p t).mp hs
    exact ⟨absurd hl, fun _ ⟨c, hc, ho⟩ => absurd ho (by simp [hout c hc]), fun _ _ hno => absurd ⟨hl, hs⟩ hno⟩

/-! ## Group by group (R126) -/

theorem lane_ofLanes (b0 b1 b2 b3 : Byte) {k : Nat} (hk : k < 4) :
    lane (ofLanes b0 b1 b2 b3) k = [b0, b1, b2, b3][k] := by
  refine BitVec.eq_of_getLsbD_eq fun i hi => ?_
  simp only [lane, ofLanes, BitVec.getLsbD_extractLsb', BitVec.getLsbD_append]
  interval_cases k <;> grind

theorem lanes_ofLanes (b0 b1 b2 b3 : Byte) : lanes (ofLanes b0 b1 b2 b3) = [b0, b1, b2, b3] := by
  simp [lanes, lane_ofLanes]

theorem groupCode_final_iff {p : Params} {g : List Byte} (hg : g.length = 4) :
    groupCode p true g = .ok ↔ SplitText p g := by
  simp [groupCode_eq_ok_iff_split hg, SplitText]

theorem groupCode_inner_iff {p : Params} {g : List Byte} (hg : g.length = 4) :
    groupCode p false g = .ok ↔ ∀ c ∈ g, isMember p c = true := by
  rw [groupCode_eq_ok_iff_split hg]
  constructor
  · rintro ⟨u, v, rfl, ⟨hu, -⟩, hv⟩
    obtain rfl : v = [] := by simpa using hv
    simpa using hu
  · exact fun h => ⟨g, [], by simp, ⟨h, by simp⟩, by simp⟩

/-- DECGRP's checks pass on every group of a text, FINAL on the last one only. -/
def GroupsPass (p : Params) (t : List Byte) : Prop :=
  ∀ c ∈ decodeCalls t, groupCode p c.1 (lanes c.2) = .ok

theorem groupsPass_cons (p : Params) (s0 s1 s2 s3 : Byte) (rest : List Byte) :
    GroupsPass p (s0 :: s1 :: s2 :: s3 :: rest) ↔
      groupCode p rest.isEmpty [s0, s1, s2, s3] = .ok ∧ GroupsPass p rest := by
  simp [GroupsPass, decodeCalls, lanes_ofLanes]

/-- Group by group: the PADs stand in the last group, and the groups before it are members. -/
theorem groupsPass_iff (p : Params) {t : List Byte} (hlen : t.length % 4 = 0) :
    GroupsPass p t ↔ SplitText p t := by
  induction t using decodeCalls.induct with
  | case1 s0 s1 s2 s3 rest ih =>
    have hrest : rest.length % 4 = 0 := by simp only [List.length_cons] at hlen; omega
    rw [groupsPass_cons, ih hrest]
    by_cases hnil : rest = []
    · subst hnil
      exact (and_iff_left (splitText_nil p)).trans (groupCode_final_iff rfl)
    · have hpos := List.length_pos_iff.mpr hnil
      rw [List.isEmpty_eq_false_iff.mpr hnil, groupCode_inner_iff rfl, ← splitText_append_iff (by omega)]
      rfl
  | case2 t hshort =>
    match t, hlen, hshort with
    | [], _, _ => exact iff_of_true nofun (splitText_nil p)
    | s0 :: s1 :: s2 :: s3 :: rest, _, h => exact absurd rfl (h s0 s1 s2 s3 rest)

/-- Settles O15: a text of whole groups passes both when it is members and then at most two PADs. -/
theorem validIffGroupsPass : Obligations.ValidIffGroupsPass := by
  intro s t hlen _
  simp only [succeeded_execDecgrp]
  rw [validate_eq_ok_iff, and_iff_right hlen]
  exact (groupsPass_iff s.params hlen).symm

/-! ## VALIDATE (R124) -/

theorem frame_of_frameIs {s : State} {x : List Byte} (h : FrameIs s x) : s.frame s.ilen.toNat = x := by
  obtain ⟨hlen, hx⟩ := h
  refine List.ext_getElem (by simp [hlen]) fun i hi hix => ?_
  rw [frame_getElem s (by simpa using hi), hx i hix]

theorem validate_bits_le_three (p : Params) (t : List Byte) : (validate p t).bits ≤ 3 := by
  rcases validate_cases p t with ⟨-, e⟩ | ⟨-, -, e⟩ | ⟨-, -, -, e⟩ | ⟨-, -, e⟩ <;> rw [e] <;> decide

theorem exec_validate (s : State) : exec .validate s = .next (s.complete (textCode s)) := rfl

/-- Settles O16: VALIDATE completes with `textCode`, which is the capacity error or the validator's answer. -/
theorem validateCompletes : Obligations.ValidateCompletes := by
  refine ⟨rfl, fun s => ⟨fun hbig => ?_, fun x hx hfit => ⟨(validate s.params x).bits, ?_, congrArg ErrCode.bits,
    congrArg ErrCode.bits, congrArg ErrCode.bits, congrArg ErrCode.bits, validate_bits_le_three s.params x⟩⟩⟩
  · rcases textCode_cases s with ⟨-, hc⟩ | ⟨hle, -⟩
    · rw [exec_validate, hc]; rfl
    · omega
  · rcases textCode_cases s with ⟨hbig, -⟩ | ⟨-, hc⟩
    · exact absurd hx.1 (by omega)
    · rw [exec_validate, hc, frame_of_frameIs hx]; rfl

/-! ## Encodings (R127) -/

theorem isMember_symbolAt (p : Params) (i : Index) : isMember p (symbolAt p i) = true :=
  (isMember_iff p _).mpr ⟨i, rfl⟩

theorem isPad_pad {p : Params} (hp : p.SymbolsOk) : isPad p p.pad = true := (isPad_iff_eq_pad hp).mpr rfl

/-- Whole groups encode to members; a short last one to members and one or two PADs (R140 to R143). -/
theorem splitText_encodeBytes {p : Params} (hp : p.SymbolsOk) (x : List Byte) : SplitText p (encodeBytes p x) := by
  induction x using encodeBytes.induct with
  | case1 => exact splitText_nil p
  | case2 b0 => exact ⟨[_, _], [p.pad, p.pad], rfl, by simp [GroupSplit, isMember_symbolAt, isPad_pad hp]⟩
  | case3 b0 b1 => exact ⟨[_, _, _], [p.pad], rfl, by simp [GroupSplit, isMember_symbolAt, isPad_pad hp]⟩
  | case4 b0 b1 b2 rest ih => exact ih.prepend_members (by simp [encGroup3, isMember_symbolAt])

/-- Settles O17: an encoding is whole groups, members and then at most two PADs. -/
theorem encoderOutputIsValid : Obligations.EncoderOutputIsValid := by
  intro p hp x
  rw [validate_eq_ok_iff, encodeBytes_length]
  exact ⟨Nat.mul_mod_right 4 _, splitText_encodeBytes hp x⟩

end Sys2Proof.Machine
end

section
/-! PROOFS. Family 42_encoder: the packer as quotients and remainders; an encoding as symbols and then PADs; ENCGRP and
its calls on a frame's groups; ENCODE. -/

namespace Sys2Proof.Machine

/-! ## The packer on numbers (R140 to R142) -/

theorem packV0_toNat : ∀ b0 : Byte, (packV0 b0).toNat = b0.toNat / 4 := by decide

theorem packV3_toNat : ∀ b2 : Byte, (packV3 b2).toNat = b2.toNat % 64 := by decide

/-! The fields of a byte that v1 and v2 put together, each where it stands in the index. -/

theorem low2_toNat : ∀ b : Byte, ((b &&& 0x03) <<< 4).toNat = b.toNat % 4 * 2 ^ 4 := by decide

theorem high4_toNat : ∀ b : Byte, ((b &&& 0xF0) >>> 4).toNat = b.toNat / 16 := by decide

theorem low4_toNat : ∀ b : Byte, ((b &&& 0x0F) <<< 2).toNat = b.toNat % 16 * 2 ^ 2 := by decide

theorem high2_toNat : ∀ b : Byte, ((b &&& 0xC0) >>> 6).toNat = b.toNat / 64 := by decide

/-- Where `y` lies below the bits of `x`, the `|` of the packer is a sum. -/
theorem or_setWidth_toNat {x y : Byte} {k a c : Nat} (hx : x.toNat = a * 2 ^ k) (hy : y.toNat = c)
    (hc : c < 2 ^ k) (hfit : a * 2 ^ k + c < 64) : ((x ||| y).setWidth 6).toNat = a * 2 ^ k + c := by
  have hsum : a * 2 ^ k ||| c = a * 2 ^ k + c := by rw [Nat.mul_comm, Nat.two_pow_add_eq_or_of_lt hc]
  rw [BitVec.toNat_setWidth, BitVec.toNat_or, hx, hy, hsum, Nat.mod_eq_of_lt hfit]

theorem packV1_toNat (b0 b1 : Byte) : (packV1 b0 b1).toNat = b0.toNat % 4 * 16 + b1.toNat / 16 := by
  have h1 := b1.isLt
  exact or_setWidth_toNat (low2_toNat b0) (high4_toNat b1) (by omega) (by omega)

theorem packV2_toNat (b1 b2 : Byte) : (packV2 b1 b2).toNat = b1.toNat % 16 * 4 + b2.toNat / 64 := by
  have h2 := b2.isLt
  exact or_setWidth_toNat (low4_toNat b1) (high2_toNat b2) (by omega) (by omega)

/-- A group of two bytes has an implicit third byte of 0 (R141). -/
theorem encGroup2_eq (p : Params) (b0 b1 : Byte) : encGroup2 p b0 b1 =
    [symbolAt p (packV0 b0), symbolAt p (packV1 b0 b1), symbolAt p (packV2 b1 0), p.pad] := by
  simp [encGroup2, packV2]

/-- A group of one byte has an implicit second byte of 0 (R142). -/
theorem encGroup1_eq (p : Params) (b0 : Byte) :
    encGroup1 p b0 = [symbolAt p (packV0 b0), symbolAt p (packV1 b0 0), p.pad, p.pad] := by
  simp [encGroup1, packV1]

section
variable {p : Params} {sym : Nat → Byte} (hsym : ∀ k, sym k = symbolAt p (BitVec.ofNat 6 k)) (b0 b1 b2 : Byte)
include hsym

theorem symbolAt_eq_of_toNat {i : Index} {k : Nat} (h : i.toNat = k) : symbolAt p i = sym k := by
  rw [hsym, ← h, BitVec.ofNat_toNat, BitVec.setWidth_eq]

theorem encGroup3_eq_sym : encGroup3 p b0 b1 b2 = [sym (b0.toNat / 4), sym (b0.toNat % 4 * 16 + b1.toNat / 16),
    sym (b1.toNat % 16 * 4 + b2.toNat / 64), sym (b2.toNat % 64)] := by
  rw [encGroup3, symbolAt_eq_of_toNat hsym (packV0_toNat b0), symbolAt_eq_of_toNat hsym (packV1_toNat b0 b1),
    symbolAt_eq_of_toNat hsym (packV2_toNat b1 b2), symbolAt_eq_of_toNat hsym (packV3_toNat b2)]

theorem encGroup2_eq_sym : encGroup2 p b0 b1 =
    [sym (b0.toNat / 4), sym (b0.toNat % 4 * 16 + b1.toNat / 16), sym (b1.toNat % 16 * 4), p.pad] := by
  rw [encGroup2_eq, symbolAt_eq_of_toNat hsym (packV0_toNat b0), symbolAt_eq_of_toNat hsym (packV1_toNat b0 b1),
    symbolAt_eq_of_toNat hsym (packV2_toNat b1 0)]
  rfl

theorem encGroup1_eq_sym : encGroup1 p b0 = [sym (b0.toNat / 4), sym (b0.toNat % 4 * 16), p.pad, p.pad] := by
  rw [encGroup1_eq, symbolAt_eq_of_toNat hsym (packV0_toNat b0), symbolAt_eq_of_toNat hsym (packV1_toNat b0 0)]
  rfl

end

/-! ## The encoding of a sequence (R143, R146, R147) -/

/-- Whole groups in front encode for themselves. -/
theorem encodeBytes_append (p : Params) {x : List Byte} (y : List Byte) (hx : x.length % 3 = 0) :
    encodeBytes p (x ++ y) = encodeBytes p x ++ encodeBytes p y := by
  induction x using encodeBytes.induct with
  | case1 => rfl
  | case2 b0 => cases hx
  | case3 b0 b1 => cases hx
  | case4 b0 b1 b2 rest ih =>
    have hrest : rest.length % 3 = 0 := (Nat.add_mod_right rest.length 3).symm.trans hx
    simp [encodeBytes, ih hrest]

/-- Settles O19: the groups are the equations of `encodeBytes`. -/
theorem encodeConcatenatesGroups : Obligations.EncodeConcatenatesGroups := fun p =>
  ⟨rfl, fun _ => rfl, fun _ _ => rfl, fun _ _ _ => rfl, fun _ => encodeBytes_append p⟩

/-- An encoding is symbols of the ROM and then the PADs that R146 counts. -/
theorem encodeBytes_eq_symbols_append_pads (p : Params) (x : List Byte) :
    ∃ v : List Index, encodeBytes p x =
      v.map (symbolAt p) ++ List.replicate ((3 - x.length % 3) % 3) p.pad := by
  induction x using encodeBytes.induct with
  | case1 => exact ⟨[], rfl⟩
  | case2 b0 => exact ⟨[packV0 b0, packV1 b0 0], encGroup1_eq p b0⟩
  | case3 b0 b1 => exact ⟨[packV0 b0, packV1 b0 b1, packV2 b1 0], encGroup2_eq p b0 b1⟩
  | case4 b0 b1 b2 rest ih =>
    obtain ⟨v, hv⟩ := ih
    have hmod : (b0 :: b1 :: b2 :: rest).length % 3 = rest.length % 3 := Nat.add_mod_right rest.length 3
    refine ⟨[packV0 b0, packV1 b0 b1, packV2 b1 b2, packV3 b2] ++ v, ?_⟩
    rw [hmod, encodeBytes, hv]
    rfl

/-- Settles O20: the ROM does not hold PAD, so the PADs at the end are all. -/
theorem lengthAndPaddingLaws : Obligations.LengthAndPaddingLaws := by
  intro p hp x
  obtain ⟨-, hpad⟩ := romInjectiveWithoutPad p hp
  obtain ⟨v, hv⟩ := encodeBytes_eq_symbols_append_pads p x
  refine ⟨encodeBytes_length p x, v.map (symbolAt p), hv, fun hmem => ?_⟩
  obtain ⟨i, -, hi⟩ := List.mem_map.mp hmem
  exact hpad i hi

/-- Settles O21: a symbol is one of the ROM's or one of the PADs. -/
theorem encodingStaysInAlphabet : Obligations.EncodingStaysInAlphabet := by
  intro p x c hc
  obtain ⟨v, hv⟩ := encodeBytes_eq_symbols_append_pads p x
  rw [hv, List.mem_append] at hc
  rcases hc with hc | hc
  · obtain ⟨i, -, hi⟩ := List.mem_map.mp hc
    exact .inr ⟨i, hi⟩
  · exact .inl (List.eq_of_mem_replicate hc)

/-! ## ENCGRP (R144, R148) -/

theorem lane_toNat (w : Word) (k : Nat) : (lane w k).toNat = w.toNat / 2 ^ (8 * k) % 256 := by
  rw [lane, BitVec.extractLsb'_toNat, Nat.shiftRight_eq_div_pow]

theorem encGroupOfArg_length (p : Params) (n : BitVec 2) (arg : Word) : (encGroupOfArg p n arg).length = 4 := by
  unfold encGroupOfArg
  split <;> rfl

/-- The four symbols are the lanes of RES. -/
theorem lanes_encGroupResult {t : List Byte} (ht : t.length = 4) : lanes (encGroupResult t) = t := by
  obtain ⟨s0, s1, s2, s3, rfl⟩ := List.length_eq_four.mp ht
  exact lanes_ofLanes s0 s1 s2 s3

theorem exec_encgrp {n : BitVec 2} (hn : n ≠ 0) (s : State) : exec (.encgrp n) s =
    .next ((s.setRes (encGroupResult (encGroupOfArg s.params n s.arg))).complete .ok) := if_neg hn

theorem encode_encgrp_toNat (n : BitVec 2) : (encode (.encgrp n)).toNat = 4 + 65536 * n.toNat :=
  commandWord_toNat 4 false n

/-- Settles O18: RES holds the group's symbols, which are those of the packer's numbers. -/
theorem encgrpCompletes : Obligations.EncgrpCompletes := by
  intro s n b0 b1 b2 sym h0 h1 h2 hsym
  have e0 : b0 = (lane s.arg 0).toNat := by simp [lane_toNat, h0]
  have e1 : b1 = (lane s.arg 1).toNat := by simp [lane_toNat, h1]
  have e2 : b2 = (lane s.arg 2).toNat := by simp [lane_toNat, h2]
  refine ⟨fun hn => ⟨encode_encgrp_toNat n, encGroupResult (encGroupOfArg s.params n s.arg), exec_encgrp hn s, ?_⟩,
    .nIsZero, rfl⟩
  rw [lanes_encGroupResult (encGroupOfArg_length s.params n s.arg), e0, e1, e2]
  refine ⟨?_, ?_, ?_⟩
  · rintro rfl
    exact encGroup3_eq_sym hsym _ _ _
  · rintro rfl
    exact encGroup2_eq_sym hsym _ _
  · rintro rfl
    exact encGroup1_eq_sym hsym _

/-- The lanes of RES after ENCGRP of the group held in `arg`. -/
theorem resLanes_encgrp {n : BitVec 2} (hn : n ≠ 0) (s : State) (arg : Word) :
    resLanes (exec (.encgrp n) { s with arg := arg }) = encGroupOfArg s.params n arg := by
  rw [exec_encgrp hn]
  exact lanes_encGroupResult (encGroupOfArg_length s.params n arg)

section
variable (p : Params) (b0 b1 b2 b3 : Byte)

/-! ENCGRP ignores the bytes of ARG at positions N and above (R144). -/

theorem encGroupOfArg_one : encGroupOfArg p 1 (ofLanes b0 b1 b2 b3) = encGroup1 p b0 := by
  simp [encGroupOfArg, lane_ofLanes]

theorem encGroupOfArg_two : encGroupOfArg p 2 (ofLanes b0 b1 b2 b3) = encGroup2 p b0 b1 := by
  simp [encGroupOfArg, lane_ofLanes]

theorem encGroupOfArg_three : encGroupOfArg p 3 (ofLanes b0 b1 b2 b3) = encGroup3 p b0 b1 b2 := by
  simp [encGroupOfArg, lane_ofLanes]

end

/-- Settles O22: call by call, the lanes of RES are the group's symbols. -/
theorem encgrpCallsCompose : Obligations.EncgrpCallsCompose := by
  intro s x
  induction x using encodeCalls.induct with
  | case1 => rfl
  | case2 b0 =>
    rw [encodeCalls, List.flatMap_singleton, resLanes_encgrp (n := 1) (by decide), encGroupOfArg_one, encodeBytes]
  | case3 b0 b1 =>
    rw [encodeCalls, List.flatMap_singleton, resLanes_encgrp (n := 2) (by decide), encGroupOfArg_two, encodeBytes]
  | case4 b0 b1 b2 rest ih =>
    rw [encodeCalls, List.flatMap_cons, ih, resLanes_encgrp (n := 3) (by decide), encGroupOfArg_three, encodeBytes]

/-! ## ENCODE (R145) -/

theorem exec_encode (s : State) : exec .encode s = .next (s.finishFrame (encodeOutcome s)) :=
  congrArg Host.Outcome.next (encodeFrame_eq_finishFrame s)

theorem encodeOutcome_of_tooBig {s : State}
    (h : s.params.cap < s.ilen.toNat ∨ s.params.cap < encodedLength s.ilen.toNat) :
    encodeOutcome s = .error .capacity := if_pos h

theorem encodeOutcome_of_frameIs {s : State} {x : List Byte} (hx : FrameIs s x) (hfit : x.length ≤ s.params.cap)
    (hout : encodedLength x.length ≤ s.params.cap) : encodeOutcome s = .ok (encodeBytes s.params x) := by
  have hframe := frame_of_frameIs hx
  obtain ⟨hlen, -⟩ := hx
  rw [encodeOutcome, hframe, hlen, if_neg (by omega)]

/-- OLEN holds the exact length of an output that fits in OBUF. -/
theorem finishFrame_olen {s : State} {y : List Byte} (hcap : s.params.cap ≤ 65536) (hy : y.length ≤ s.params.cap) :
    (s.finishFrame (.ok y)).olen.toNat = y.length := Nat.mod_eq_of_lt (by omega)

theorem finishFrame_obuf (s : State) {y : List Byte} {j : Nat} (hj : j < y.length) :
    (s.finishFrame (.ok y)).obuf j = y[j] :=
  (writeObuf_obuf s hj).trans (List.getElem_eq_getD 0).symm

/-- Settles O23: both ends are `finishFrame`'s, on the capacity error and on the encoding. -/
theorem encodeCompletes : Obligations.EncodeCompletes := by
  refine ⟨rfl, ?_⟩
  rintro s ⟨-, hcap, -⟩
  refine ⟨fun hbig => ?_, fun x hx hfit hout => ?_⟩
  · rw [exec_encode, encodeOutcome_of_tooBig hbig]
    rfl
  · have hlen := encodeBytes_length s.params x
    have hy : (encodeBytes s.params x).length ≤ s.params.cap := hlen.trans_le hout
    have holen := finishFrame_olen hcap hy
    obtain ⟨hctx, hcmd, hilen, harg, hres, -⟩ := finishFrame_registers s (.ok (encodeBytes s.params x))
    refine ⟨_, by rw [exec_encode, encodeOutcome_of_frameIs hx hfit hout], holen.trans hlen, holen.symm,
      fun j => finishFrame_obuf s, fun a => finishFrame_readByte_outside hcap ?_, rfl, hctx, hcmd, hilen, harg, hres⟩
    rintro y ⟨⟩
    exact hy

end Sys2Proof.Machine
end

section
/-! PROOFS. Family 43_decoder: the unpacker as products and quotients; a decoding group by group; DECGRP and its calls
on a text's groups; padded groups and the round trip; DECODE. -/

namespace Sys2Proof.Machine

/-! ## The unpacker on numbers (R160) -/

/-- Where `y` lies below the bits of `x`, the `|` of the unpacker is a sum. -/
theorem or_toNat {x y : Byte} {k a c : Nat} (hx : x.toNat = a * 2 ^ k) (hy : y.toNat = c) (hc : c < 2 ^ k) :
    (x ||| y).toNat = a * 2 ^ k + c := by
  rw [BitVec.toNat_or, hx, hy, Nat.mul_comm, Nat.two_pow_add_eq_or_of_lt hc]

/-! The fields of a value that a byte puts together, each where it stands in the byte. -/

theorem shiftLeft2_toNat : ∀ v : Byte, v.toNat < 64 → (v <<< 2).toNat = v.toNat * 2 ^ 2 := by decide

theorem shiftRight4_toNat : ∀ v : Byte, (v >>> 4).toNat = v.toNat / 16 := by decide

theorem low4High_toNat : ∀ v : Byte, ((v &&& 0x0F) <<< 4).toNat = v.toNat % 16 * 2 ^ 4 := by decide

theorem shiftRight2_toNat : ∀ v : Byte, (v >>> 2).toNat = v.toNat / 4 := by decide

theorem low2High_toNat : ∀ v : Byte, ((v &&& 0x03) <<< 6).toNat = v.toNat % 4 * 2 ^ 6 := by decide

section
variable {v0 v1 v2 v3 : Byte}

theorem unpackB0_toNat (h0 : v0.toNat < 64) (h1 : v1.toNat < 64) :
    (unpackB0 v0 v1).toNat = v0.toNat * 4 + v1.toNat / 16 :=
  or_toNat (shiftLeft2_toNat v0 h0) (shiftRight4_toNat v1) (by omega)

theorem unpackB1_toNat (h2 : v2.toNat < 64) :
    (unpackB1 v1 v2).toNat = v1.toNat % 16 * 16 + v2.toNat / 4 :=
  or_toNat (low4High_toNat v1) (shiftRight2_toNat v2) (by omega)

theorem unpackB2_toNat (h3 : v3.toNat < 64) : (unpackB2 v2 v3).toNat = v2.toNat % 4 * 64 + v3.toNat :=
  or_toNat (low2High_toNat v2) rfl h3

end

theorem symbolValue_toNat (p : Params) (c : Byte) : (symbolValue p c).toNat = (indexOf p c).toNat :=
  BitVec.toNat_setWidth_of_le (by decide)

/-- A member's value is an index, 0 to 63 (R160). -/
theorem symbolValue_lt {p : Params} {c : Byte} (h : isMember p c = true) : (symbolValue p c).toNat < 64 := by
  have hnf : (classify p c).nf = false := by simpa [isMember] using h
  rw [symbolValue_toNat, indexOf, hnf]
  exact (BitVec.toNat_setWidth_of_le (by decide)).trans_lt (classify p c).idx.isLt

theorem symbolValue_symbolAt {p : Params} (hp : p.SymbolsOk) (i : Index) :
    (symbolValue p (symbolAt p i)).toNat = i.toNat := by
  rw [symbolValue_toNat, indexOf_symbolAt hp]
  exact BitVec.toNat_setWidth_of_le (by decide)

/-! ## A decoding group by group (R161) -/

theorem trailingPads_of_no_pad {p : Params} {u : List Byte} (hu : ∀ c ∈ u, isPad p c = false) :
    trailingPads p u = 0 := by
  simpa using trailingPads_append (v := []) hu

/-- Symbols that are no PADs, in front, do not change the trailing run (R121). -/
theorem trailingPads_append_left {p : Params} {u : List Byte} (hu : ∀ c ∈ u, isPad p c = false) (t : List Byte) :
    trailingPads p (u ++ t) = trailingPads p t := by
  have hnone : u.reverse.takeWhile (isPad p) = [] := List.length_eq_zero_iff.mp (trailingPads_of_no_pad hu)
  rw [trailingPads, List.reverse_append, List.takeWhile_append, hnone, List.append_nil]
  split_ifs with hall
  · exact hall.symm
  · rfl

theorem decGroup_length {k : Nat} (hk : k ≤ 2) (p : Params) (s0 s1 s2 s3 : Byte) :
    (decGroup p k s0 s1 s2 s3).length = 3 - k := by
  match k, hk with
  | 0, _ => rfl
  | 1, _ => rfl
  | 2, _ => rfl

theorem groupBytes_eq (p : Params) (s0 s1 s2 s3 : Byte) :
    groupBytes p [s0, s1, s2, s3] = decGroup p (trailingPads p [s0, s1, s2, s3]) s0 s1 s2 s3 :=
  List.append_nil _

theorem groupBytes_of_members {p : Params} {s0 s1 s2 s3 : Byte} (h : ∀ c ∈ [s0, s1, s2, s3], isMember p c = true) :
    groupBytes p [s0, s1, s2, s3] = decGroup p 0 s0 s1 s2 s3 := by
  rw [groupBytes_eq, trailingPads_of_no_pad fun c hc => isPad_of_isMember (h c hc)]

/-- A text of whole groups is empty, or a group and such a text. -/
theorem wholeGroups_induction {motive : (t : List Byte) → t.length % 4 = 0 → Prop} (nil : motive [] rfl)
    (group : ∀ (s0 s1 s2 s3 : Byte) (rest : List Byte) (hrest : rest.length % 4 = 0), motive rest hrest →
      motive (s0 :: s1 :: s2 :: s3 :: rest) ((Nat.add_mod_right rest.length 4).trans hrest)) :
    ∀ (t : List Byte) (ht : t.length % 4 = 0), motive t ht
  | [], _ => nil
  | s0 :: s1 :: s2 :: s3 :: rest, ht =>
    have hrest := (Nat.add_mod_right rest.length 4).symm.trans ht
    group s0 s1 s2 s3 rest hrest (wholeGroups_induction nil group rest hrest)

theorem decodeText_eq_ok_iff (p : Params) (t y : List Byte) :
    decodeText p t = .ok y ↔ validate p t = .ok ∧ decodeGroups p (trailingPads p t) t = y := by
  rw [decodeText_eq]
  split_ifs with hok <;> simp [hok]

theorem decodeText_nil (p : Params) : decodeText p [] = .ok [] := rfl

/-- The validator on a group in front of a text: the group's own checks, and the rest (R126). -/
theorem validate_group_append (p : Params) (s0 s1 s2 s3 : Byte) (rest : List Byte) :
    validate p (s0 :: s1 :: s2 :: s3 :: rest) = .ok ↔
      groupCode p rest.isEmpty [s0, s1, s2, s3] = .ok ∧ validate p rest = .ok := by
  have hmod : (s0 :: s1 :: s2 :: s3 :: rest).length % 4 = rest.length % 4 := Nat.add_mod_right rest.length 4
  rw [validate_eq_ok_iff, validate_eq_ok_iff, hmod, and_left_comm]
  refine and_congr_right fun hlen => ?_
  rw [← groupsPass_iff p hlen, ← groupsPass_iff p (hmod.trans hlen), groupsPass_cons]

/-- The bytes of a group in front of a text: only a last group has PADs. -/
theorem decodeGroups_group_append {p : Params} {s0 s1 s2 s3 : Byte} {rest : List Byte}
    (hg : groupCode p rest.isEmpty [s0, s1, s2, s3] = .ok) :
    decodeGroups p (trailingPads p (s0 :: s1 :: s2 :: s3 :: rest)) (s0 :: s1 :: s2 :: s3 :: rest) =
      groupBytes p [s0, s1, s2, s3] ++ decodeGroups p (trailingPads p rest) rest := by
  rw [groupBytes_eq]
  cases rest with
  | nil => rfl
  | cons c rest =>
    have hnopad : ∀ a ∈ [s0, s1, s2, s3], isPad p a = false := fun a ha =>
      isPad_of_isMember ((groupCode_inner_iff rfl).mp hg a ha)
    rw [trailingPads_of_no_pad hnopad]
    exact congrArg (fun k => decGroup p 0 s0 s1 s2 s3 ++ decodeGroups p k (c :: rest))
      (trailingPads_append_left hnopad _)

/-- Decoding takes a text group by group (R161). -/
theorem decodeText_group_append (p : Params) (s0 s1 s2 s3 : Byte) (rest y : List Byte) :
    decodeText p (s0 :: s1 :: s2 :: s3 :: rest) = .ok y ↔
      groupCode p rest.isEmpty [s0, s1, s2, s3] = .ok ∧
        ∃ z, decodeText p rest = .ok z ∧ y = groupBytes p [s0, s1, s2, s3] ++ z := by
  simp only [decodeText_eq_ok_iff, validate_group_append]
  constructor
  · rintro ⟨⟨hg, hrest⟩, rfl⟩
    exact ⟨hg, _, ⟨hrest, rfl⟩, decodeGroups_group_append hg⟩
  · rintro ⟨hg, z, ⟨hrest, rfl⟩, rfl⟩
    exact ⟨⟨hg, hrest⟩, decodeGroups_group_append hg⟩

/-! ## The length of a decoding (R164) -/

theorem decodeGroups_length {k : Nat} (hk : k ≤ 2) (p : Params) {t : List Byte} (ht : t.length % 4 = 0) :
    (decodeGroups p k t).length = 3 * (t.length / 4) - k := by
  induction t, ht using wholeGroups_induction with
  | nil => simp [decodeGroups]
  | group s0 s1 s2 s3 rest hrest ih =>
    simp only [decodeGroups, List.length_append, List.length_cons, ih]
    by_cases hnil : rest = []
    · subst hnil
      simp [decGroup_length hk]
    · have hpos := List.length_pos_iff.mpr hnil
      rw [List.isEmpty_eq_false_iff.mpr hnil, if_neg Bool.false_ne_true, decGroup_length (Nat.zero_le 2)]
      omega

/-- Settles O26: a valid text is whole groups, and its trailing run is at most two PADs. -/
theorem decodedLength : Obligations.DecodedLength := by
  intro p t y hy
  obtain ⟨hok, rfl⟩ := (decodeText_eq_ok_iff p t y).mp hy
  obtain ⟨hlen, hsplit⟩ := (validate_eq_ok_iff p t).mp hok
  obtain ⟨-, hk, -⟩ := (splitText_iff p t).mp hsplit
  have hy := decodeGroups_length hk p hlen
  exact ⟨hy, by omega⟩

/-! ## DECGRP (R165, R167) -/

theorem exec_decgrp (final : Bool) (s : State) : exec (.decgrp final) s =
    .next ((s.setRes (groupResult s.params final (lanes s.arg))).complete
      (groupCode s.params final (lanes s.arg))) := rfl

/-- The three answers of DECGRP's checks, each with when it is given (R165). -/
theorem groupCode_cases (p : Params) (final : Bool) (g : List Byte) :
    ((∃ c ∈ g, isOutsider p c = true) ∧ groupCode p final g = .invalidSymbol) ∨
    ((∀ c ∈ g, isOutsider p c = false) ∧
      (2 < trailingPads p g ∨ (∃ c ∈ g.take (4 - trailingPads p g), isPad p c = true) ∨
        (0 < trailingPads p g ∧ final = false)) ∧ groupCode p final g = .misplacedPadding) ∨
    ((∀ c ∈ g, isOutsider p c = false) ∧ trailingPads p g ≤ 2 ∧
      (∀ c ∈ g.take (4 - trailingPads p g), isPad p c = false) ∧
      (0 < trailingPads p g → final = true) ∧ groupCode p final g = .ok) := by
  unfold groupCode
  split_ifs with hout hrun hpad hfinal <;> simp_all

theorem append_toNat {m n : Nat} (x : BitVec m) (y : BitVec n) :
    (x ++ y).toNat = x.toNat * 2 ^ n + y.toNat := by
  rw [BitVec.toNat_append, ← Nat.shiftLeft_add_eq_or_of_lt y.isLt, Nat.shiftLeft_eq]

/-- R87's layout of DECGRP's result as a number. -/
theorem decGroupResult_toNat {y : List Byte} (hy : y.length ≤ 3) : (decGroupResult y).toNat =
    y.length * 16777216 + (y.getD 2 0).toNat * 65536 + (y.getD 1 0).toNat * 256 + (y.getD 0 0).toNat := by
  have hcount : (BitVec.ofNat 2 y.length).toNat = y.length := Nat.mod_eq_of_lt (by omega)
  simp only [decGroupResult, append_toNat, hcount, BitVec.ofNat_eq_ofNat, BitVec.toNat_ofNat]
  omega

/-- The number RES holds after DECGRP of a group whose symbols are members (R160, R165). -/
theorem decGroupResult_decGroup {p : Params} {k : Nat} {s0 s1 s2 s3 : Byte} (hk : k ≤ 2)
    (hmem : ∀ c ∈ [s0, s1, s2, s3].take (4 - k), isMember p c = true) {v : Nat → Nat}
    (hv : ∀ j, v j = (indexOf p ([s0, s1, s2, s3].getD j 0)).toNat) :
    (decGroupResult (decGroup p k s0 s1 s2 s3)).toNat = (3 - k) * 16777216 +
      (if k = 0 then v 2 % 4 * 64 + v 3 else 0) * 65536 +
      (if k ≤ 1 then v 1 % 16 * 16 + v 2 / 4 else 0) * 256 + (v 0 * 4 + v 1 / 16) := by
  rw [decGroupResult_toNat (by rw [decGroup_length hk]; omega), decGroup_length hk]
  obtain rfl : v = fun j => (symbolValue p ([s0, s1, s2, s3].getD j 0)).toNat := by
    funext j
    rw [hv, symbolValue_toNat]
  match k, hk with
  | 0, _ =>
    obtain ⟨h0, h1, h2, h3⟩ : _ ∧ _ ∧ _ ∧ _ := by simpa using hmem
    simp [decGroup, unpackB0_toNat (symbolValue_lt h0) (symbolValue_lt h1), unpackB1_toNat (symbolValue_lt h2),
      unpackB2_toNat (symbolValue_lt h3)]
  | 1, _ =>
    obtain ⟨h0, h1, h2⟩ : _ ∧ _ ∧ _ := by simpa using hmem
    simp [decGroup, unpackB0_toNat (symbolValue_lt h0) (symbolValue_lt h1), unpackB1_toNat (symbolValue_lt h2)]
  | 2, _ =>
    obtain ⟨h0, h1⟩ : _ ∧ _ := by simpa using hmem
    simp [decGroup, unpackB0_toNat (symbolValue_lt h0) (symbolValue_lt h1)]

/-- Settles O24: RES and ERR are those of the checks' answer, and each clause's premises leave one answer. -/
theorem decgrpCompletes : Obligations.DecgrpCompletes := by
  refine ⟨rfl, rfl, ?_⟩
  rintro s final g k v hg rfl hv
  refine ⟨groupResult s.params final g, (groupCode s.params final g).bits, by rw [exec_decgrp, hg]; rfl, ?_⟩
  simp only [← isOutsider_iff, Bool.not_eq_true]
  unfold groupResult
  rcases groupCode_cases s.params final g with ⟨⟨c, hc, hout⟩, e⟩ | ⟨hout, hbad, e⟩ | ⟨hout, hk, hpad, hfinal, e⟩ <;>
    rw [e]
  · exact ⟨fun _ => ⟨rfl, rfl⟩, fun hno => absurd hout (by simp [hno c hc])⟩
  · refine ⟨fun ⟨c, hc, h⟩ => absurd h (by simp [hout c hc]), fun _ =>
      ⟨fun _ => ⟨rfl, rfl⟩, fun _ _ => ⟨rfl, rfl⟩, fun _ _ => ⟨rfl, rfl⟩, fun hk hpad hfinal => ?_⟩⟩
    rcases hbad with hk' | ⟨c, hc, h⟩ | ⟨hpos, hf⟩
    · omega
    · exact absurd h (by simp [hpad c hc])
    · exact absurd hfinal (by simp [hf, hpos.ne'])
  · refine ⟨fun ⟨c, hc, h⟩ => absurd h (by simp [hout c hc]), fun _ => ⟨fun hbig => by omega,
      fun _ ⟨c, hc, h⟩ => absurd h (by simp [hpad c hc]), fun hpos hf => absurd (hfinal hpos) (by simp [hf]),
      fun _ _ _ => ⟨rfl, ?_⟩⟩⟩
    have hmem : ∀ c ∈ g.take (4 - trailingPads s.params g), isMember s.params c = true := fun c hc =>
      ((isOutsider_eq_false_iff _ c).mp (hout c (List.mem_of_mem_take hc))).resolve_right (by simp [hpad c hc])
    subst hg
    rw [if_pos rfl, groupBytes_eq]
    exact decGroupResult_decGroup hk hmem hv

/-- RES after DECGRP of at most three bytes: the bytes in the lower lanes, their count in the highest (R87). -/
theorem decGroupResult_eq_ofLanes {y : List Byte} (hy : y.length ≤ 3) : decGroupResult y =
    ofLanes (y.getD 0 0) (y.getD 1 0) (y.getD 2 0) (BitVec.ofNat 8 y.length) := by
  have hcount : (0 : BitVec 6) ++ BitVec.ofNat 2 y.length = BitVec.ofNat 8 y.length := by
    refine BitVec.eq_of_toNat_eq ?_
    simp only [append_toNat, BitVec.ofNat_eq_ofNat, BitVec.toNat_ofNat]
    omega
  rw [decGroupResult, hcount]
  rfl

/-- The first RES[25:24] lanes of the result are the bytes that were put there (R167). -/
theorem take_lanes_decGroupResult {y : List Byte} (hy : y.length ≤ 3) :
    (lanes (decGroupResult y)).take ((decGroupResult y).extractLsb' 24 2).toNat = y := by
  have hcount : ((decGroupResult y).extractLsb' 24 2).toNat = y.length := by
    have h0 := (y.getD 0 0).isLt
    have h1 := (y.getD 1 0).isLt
    have h2 := (y.getD 2 0).isLt
    rw [BitVec.extractLsb'_toNat, Nat.shiftRight_eq_div_pow, decGroupResult_toNat hy]
    omega
  rw [hcount, decGroupResult_eq_ofLanes hy, lanes_ofLanes]
  match y, hy with
  | [], _ => rfl
  | [_], _ => rfl
  | [_, _], _ => rfl
  | [_, _, _], _ => rfl

theorem resBytes_decgrp {s : State} {final : Bool} {s0 s1 s2 s3 : Byte}
    (hg : groupCode s.params final [s0, s1, s2, s3] = .ok) :
    resBytes (exec (.decgrp final) { s with arg := ofLanes s0 s1 s2 s3 }) =
      groupBytes s.params [s0, s1, s2, s3] := by
  rw [exec_decgrp]
  simp only [lanes_ofLanes, groupResult, if_pos hg, resBytes, complete_res, setRes_res]
  rw [groupBytes_eq]
  exact take_lanes_decGroupResult (decGroup_length_le _ _ _ _ _ _)

/-- Settles O29: call by call, RES holds the bytes that the text's decoding takes from the group. -/
theorem decgrpCallsCompose : Obligations.DecgrpCallsCompose := by
  intro s t y hy
  have ht := ((validate_eq_ok_iff _ _).mp ((decodeText_eq_ok_iff _ t y).mp hy).1).1
  induction t, ht using wholeGroups_induction generalizing y with
  | nil => exact Except.ok.inj hy
  | group s0 s1 s2 s3 rest _ ih =>
    obtain ⟨hg, z, hz, rfl⟩ := (decodeText_group_append _ _ _ _ _ _ _).mp hy
    rw [decodeCalls, List.flatMap_cons, ih z hz, resBytes_decgrp hg]

/-! ## Padded groups and the round trip on sequences (R162, R163) -/

theorem ofNat_eq_byte {b : Byte} {n : Nat} (h : b.toNat = n) : BitVec.ofNat 8 n = b := by
  rw [← h, BitVec.ofNat_toNat, BitVec.setWidth_eq]

section
variable {p : Params} (hp : p.SymbolsOk) (i j k l : Index) (c d : Byte)
include hp

/-! The unpacker on symbols of the ROM: a value is the index the symbol stands at. -/

theorem unpackB0_symbolAt : unpackB0 (symbolValue p (symbolAt p i)) (symbolValue p (symbolAt p j)) =
    BitVec.ofNat 8 (i.toNat * 4 + j.toNat / 16) := by
  have h := unpackB0_toNat (symbolValue_lt (isMember_symbolAt p i)) (symbolValue_lt (isMember_symbolAt p j))
  rw [symbolValue_symbolAt hp, symbolValue_symbolAt hp] at h
  exact (ofNat_eq_byte h).symm

theorem unpackB1_symbolAt : unpackB1 (symbolValue p (symbolAt p j)) (symbolValue p (symbolAt p k)) =
    BitVec.ofNat 8 (j.toNat % 16 * 16 + k.toNat / 4) := by
  have h := unpackB1_toNat (v1 := symbolValue p (symbolAt p j)) (symbolValue_lt (isMember_symbolAt p k))
  rw [symbolValue_symbolAt hp, symbolValue_symbolAt hp] at h
  exact (ofNat_eq_byte h).symm

theorem unpackB2_symbolAt : unpackB2 (symbolValue p (symbolAt p k)) (symbolValue p (symbolAt p l)) =
    BitVec.ofNat 8 (k.toNat % 4 * 64 + l.toNat) := by
  have h := unpackB2_toNat (v2 := symbolValue p (symbolAt p k)) (symbolValue_lt (isMember_symbolAt p l))
  rw [symbolValue_symbolAt hp, symbolValue_symbolAt hp] at h
  exact (ofNat_eq_byte h).symm

theorem decGroup_two_symbolAt : decGroup p 2 (symbolAt p i) (symbolAt p j) c d =
    [BitVec.ofNat 8 (i.toNat * 4 + j.toNat / 16)] := by
  simp only [decGroup, unpackB0_symbolAt hp]

theorem decGroup_one_symbolAt : decGroup p 1 (symbolAt p i) (symbolAt p j) (symbolAt p k) d =
    [BitVec.ofNat 8 (i.toNat * 4 + j.toNat / 16), BitVec.ofNat 8 (j.toNat % 16 * 16 + k.toNat / 4)] := by
  simp only [decGroup, unpackB0_symbolAt hp, unpackB1_symbolAt hp]

theorem decGroup_zero_symbolAt : decGroup p 0 (symbolAt p i) (symbolAt p j) (symbolAt p k) (symbolAt p l) =
    [BitVec.ofNat 8 (i.toNat * 4 + j.toNat / 16), BitVec.ofNat 8 (j.toNat % 16 * 16 + k.toNat / 4),
      BitVec.ofNat 8 (k.toNat % 4 * 64 + l.toNat)] := by
  simp only [decGroup, unpackB0_symbolAt hp, unpackB1_symbolAt hp, unpackB2_symbolAt hp]

end

/-- Members and then at most two PADs decode, with the PADs as the trailing run. -/
theorem decodeText_of_split {p : Params} {u v : List Byte} (h : GroupSplit p u v) (hlen : (u ++ v).length % 4 = 0) :
    decodeText p (u ++ v) = .ok (decodeGroups p v.length (u ++ v)) := by
  refine (decodeText_eq_ok_iff p _ _).mpr ⟨(validate_eq_ok_iff p _).mpr ⟨hlen, u, v, rfl, h⟩, ?_⟩
  obtain ⟨hu, hv, -⟩ := h
  rw [trailingPads_append (fun c hc => isPad_of_isMember (hu c hc)) hv]

/-- Settles O27: a group of symbols and then one or two PADs is valid whatever the symbols are. -/
theorem nonCanonicalAccepted : Obligations.NonCanonicalAccepted := by
  intro p i j k hp
  have htwo : GroupSplit p [symbolAt p i, symbolAt p j] [p.pad, p.pad] := by
    simp [GroupSplit, isMember_symbolAt, isPad_pad hp]
  have hone : GroupSplit p [symbolAt p i, symbolAt p j, symbolAt p k] [p.pad] := by
    simp [GroupSplit, isMember_symbolAt, isPad_pad hp]
  exact ⟨(decodeText_of_split htwo (by simp)).trans (congrArg Except.ok (decGroup_two_symbolAt hp i j p.pad p.pad)),
    (decodeText_of_split hone (by simp)).trans (congrArg Except.ok (decGroup_one_symbolAt hp i j k p.pad))⟩

section
variable (b0 b1 b2 : Byte)

/-! The unpacker takes the packer's fields back to the bytes (R140, R160). -/

theorem unpackB0_pack : BitVec.ofNat 8 ((packV0 b0).toNat * 4 + (packV1 b0 b1).toNat / 16) = b0 := by
  have h1 := b1.isLt
  rw [packV0_toNat, packV1_toNat]
  exact ofNat_eq_byte (by omega)

theorem unpackB1_pack : BitVec.ofNat 8 ((packV1 b0 b1).toNat % 16 * 16 + (packV2 b1 b2).toNat / 4) = b1 := by
  have h1 := b1.isLt
  have h2 := b2.isLt
  rw [packV1_toNat, packV2_toNat]
  exact ofNat_eq_byte (by omega)

theorem unpackB2_pack : BitVec.ofNat 8 ((packV2 b1 b2).toNat % 4 * 64 + (packV3 b2).toNat) = b2 := by
  have h2 := b2.isLt
  rw [packV2_toNat, packV3_toNat]
  exact ofNat_eq_byte (by omega)

end

/-- A whole group of bytes encoded in front of a decodable text. -/
theorem decodeText_encGroup3_append {p : Params} (hp : p.SymbolsOk) (b0 b1 b2 : Byte) {t y : List Byte}
    (ht : decodeText p t = .ok y) : decodeText p (encGroup3 p b0 b1 b2 ++ t) = .ok (b0 :: b1 :: b2 :: y) := by
  have hmem : ∀ c ∈ encGroup3 p b0 b1 b2, isMember p c = true := by simp [encGroup3, isMember_symbolAt]
  refine (decodeText_group_append p _ _ _ _ t _).mpr
    ⟨(groupCode_eq_ok_iff_split rfl).mpr ⟨_, [], (List.append_nil _).symm, ⟨hmem, by simp⟩, by simp⟩, y, ht, ?_⟩
  rw [groupBytes_of_members hmem, decGroup_zero_symbolAt hp, unpackB0_pack, unpackB1_pack, unpackB2_pack]
  rfl

/-- Settles O30: group by group the unpacker undoes the packer; a short last group decodes as R162 says. -/
theorem roundTripSequences : Obligations.RoundTripSequences := by
  intro p hp x
  induction x using encodeBytes.induct with
  | case1 => exact decodeText_nil p
  | case2 b0 => rw [encodeBytes, encGroup1_eq, (nonCanonicalAccepted p _ _ 0 hp).1, unpackB0_pack]
  | case3 b0 b1 => rw [encodeBytes, encGroup2_eq, (nonCanonicalAccepted p _ _ _ hp).2, unpackB0_pack, unpackB1_pack]
  | case4 b0 b1 b2 rest ih => exact decodeText_encGroup3_append hp b0 b1 b2 ih

/-! ## DECODE (R166, R163) -/

theorem exec_decode (s : State) : exec .decode s = .next (s.finishFrame (decodeOutcome s)) :=
  congrArg Host.Outcome.next (decodeFrame_eq_finishFrame s)

theorem decodeOutcome_of_tooBig {s : State} (h : s.params.cap < s.ilen.toNat) :
    decodeOutcome s = .error .capacity := if_pos h

theorem decodeOutcome_of_frameIs {s : State} {x : List Byte} (hx : FrameIs s x) (hfit : x.length ≤ s.params.cap) :
    decodeOutcome s = decodeText s.params x := by
  have hframe := frame_of_frameIs hx
  obtain ⟨hlen, -⟩ := hx
  rw [decodeOutcome, hframe, if_neg (by omega)]

theorem validate_bits_pos {p : Params} {t : List Byte} (h : validate p t ≠ .ok) : 1 ≤ (validate p t).bits := by
  rcases validate_cases p t with ⟨-, e⟩ | ⟨-, -, e⟩ | ⟨-, -, -, e⟩ | ⟨-, -, e⟩
  · rw [e]; decide
  · rw [e]; decide
  · rw [e]; decide
  · exact absurd e h

/-- Settles O28: each end is `finishFrame`'s, on the capacity error, on the validator's error and on the bytes. -/
theorem decodeCompletes : Obligations.DecodeCompletes := by
  refine ⟨rfl, ?_⟩
  rintro s ⟨-, hcap, -⟩
  refine ⟨fun hbig => by rw [exec_decode, decodeOutcome_of_tooBig hbig]; rfl, fun x hx hfit => ?_⟩
  have hout := (decodeOutcome_of_frameIs hx hfit).trans (decodeText_eq s.params x)
  refine ⟨fun hbad => ?_, fun hok => ?_⟩
  · rw [if_neg hbad] at hout
    exact ⟨(validate s.params x).bits, by rw [exec_decode, hout]; rfl, congrArg ErrCode.bits, congrArg ErrCode.bits,
      congrArg ErrCode.bits, validate_bits_pos hbad, validate_bits_le_three s.params x⟩
  · rw [if_pos hok] at hout
    have hy := decodeOutcome_length_le hout
    have holen := finishFrame_olen hcap hy
    obtain ⟨hctx, hcmd, hilen, harg, hres, -⟩ :=
      finishFrame_registers s (.ok (decodeGroups s.params (trailingPads s.params x) x))
    refine ⟨_, _, (decodeText_eq_ok_iff _ _ _).mpr ⟨hok, rfl⟩, by rw [exec_decode, hout], holen,
      fun j => finishFrame_obuf s, fun a => finishFrame_readByte_outside hcap ?_, rfl, hctx, hcmd, hilen, harg, hres⟩
    rintro y ⟨⟩
    exact hy

/-- Settles O31: the copy is the frame's encoding, which decodes to the frame (`roundTripSequences`). -/
theorem roundTripThroughBuffers : Obligations.RoundTripThroughBuffers := by
  rintro s t u x ⟨hp, hplaces⟩ hx hout ht hparams hilen hcopy
  obtain ⟨-, henc⟩ := encodeCompletes
  obtain ⟨t', ht', holen, hlen, hobuf, -⟩ := (henc s hplaces).2 x hx (by omega) hout
  obtain rfl : t = t' := Host.Outcome.next.inj (ht.symm.trans ht')
  have hframe : FrameIs u (encodeBytes u.params x) := by
    rw [hparams]
    exact ⟨by rw [hilen, hlen], fun i hi => (hcopy i (hlen ▸ hi)).trans (hobuf i hi)⟩
  rw [← hparams] at hp hplaces hout hlen
  have hround := roundTripSequences u.params hp x
  obtain ⟨-, hdec⟩ := decodeCompletes
  obtain ⟨y, v, hy, hv, hvolen, hvobuf, -, hdone, -⟩ :=
    ((hdec u hplaces).2 _ hframe (by omega)).2 (encoderOutputIsValid u.params hp x)
  obtain rfl : x = y := Except.ok.inj (hround.symm.trans hy)
  exact ⟨v, hv, by rw [hdone], BitVec.eq_of_toNat_eq (hvolen.trans hx.1.symm), hvobuf⟩

end Sys2Proof.Machine
end

section
/-! PROOFS. Family 60_exceptions: no step stops the block; the code each command completes with; what a command that
errs writes; what a step does to STATUS. -/

namespace Sys2Proof.Machine

/-! ## No step stops the block (R180) -/

theorem step_accessInReset {s : State} {a : Access} {rest : List Turn} (h : s.turns = .accessInReset a :: rest) :
    step s = .refused .accessInReset := by
  simp only [step, takeTurn, h]

/-- Settles O53: of the five kinds of move only an access during reset is refused. -/
theorem stepsNeverStop : Obligations.StepsNeverStop := by
  refine fun s => ⟨fun hno => ?_, fun a r => step_accessInReset⟩
  rcases step_cases s with ⟨-, e⟩ | ⟨r, -, e⟩ | ⟨a, r, -, e⟩ | ⟨r, -, e⟩ | ⟨a, r, ht, -⟩
  · exact e ▸ blockStep_next s
  · exact e ▸ blockStep_next _
  · exact ⟨_, e⟩
  · exact ⟨_, e⟩
  · exact absurd ht (hno a r)

/-! ## The code a command completes with (R182, R184) -/

/-- The code a command completes with; ENCGRP with N = 0 runs as BADCMD (assumption log 9). -/
def commandCode (s : State) : Instr → ErrCode
  | .symat => .ok
  | .classify => .ok
  | .validate => textCode s
  | .encgrp n => if n = 0 then .badCmd else .ok
  | .encode => if s.params.cap < s.ilen.toNat ∨ s.params.cap < encodedLength s.ilen.toNat then .capacity else .ok
  | .decgrp final => groupCode s.params final (lanes s.arg)
  | .decode => textCode s

theorem encodeFrame_status (s : State) : (encodeFrame s).status = s.status.completed (commandCode s .encode) := by
  rw [commandCode]
  rcases encodeFrame_cases s with ⟨hbig, e⟩ | ⟨hn, hm, e⟩
  · rw [e, if_pos hbig]; rfl
  · rw [e, if_neg (by omega)]; rfl

theorem decodeFrame_status (s : State) : (decodeFrame s).status = s.status.completed (textCode s) := by
  rcases decodeFrame_cases s with ⟨hok, e⟩ | ⟨-, e⟩
  · rw [e, hok]; rfl
  · rw [e]; rfl

/-- Every command ends in a next state whose STATUS is the completion with the command's code. -/
theorem exec_completes (i : Instr) (s : State) :
    ∃ t, exec i s = .next t ∧ t.status = s.status.completed (commandCode s i) := by
  cases i with
  | encgrp n =>
    by_cases hn : n = 0
    · exact ⟨_, if_pos hn, by rw [commandCode, if_pos hn]; rfl⟩
    · exact ⟨_, exec_encgrp hn s, by rw [commandCode, if_neg hn]; rfl⟩
  | encode => exact ⟨_, rfl, encodeFrame_status s⟩
  | decode => exact ⟨_, rfl, decodeFrame_status s⟩
  | symat | classify | validate | decgrp final => exact ⟨_, rfl, rfl⟩

/-- Settles O33: the code is `commandCode`. -/
theorem everyCommandCompletes : Obligations.EveryCommandCompletes := by
  intro i s
  obtain ⟨t, ht, hstatus⟩ := exec_completes i s
  exact ⟨t, commandCode s i, ht, hstatus⟩

/-- The codes of a text: the capacity error or one of the validator's. -/
theorem textCode_possible (s : State) : (textCode s).bits ∈ ([0, 1, 2, 3, 4] : List (BitVec 4)) := by
  rcases textCode_cases s with ⟨-, e⟩ | ⟨-, e⟩ <;> rw [e]
  · decide
  · have hmem : ∀ b : BitVec 4, b ≤ 3 → b ∈ ([0, 1, 2, 3, 4] : List (BitVec 4)) := by decide
    exact hmem _ (validate_bits_le_three s.params _)

theorem groupCode_possible (p : Params) (final : Bool) (g : List Byte) :
    (groupCode p final g).bits ∈ ([0, 2, 3] : List (BitVec 4)) := by
  rcases groupCode_cases p final g with ⟨-, e⟩ | ⟨-, -, e⟩ | ⟨-, -, -, -, e⟩ <;> rw [e] <;> decide

/-- The code of a well-formed command stands in its row of R182. -/
theorem commandCode_possible {i : Instr} (hw : i.wellFormed = true) (s : State) :
    (commandCode s i).bits ∈ possibleCodes i := by
  cases i with
  | symat | classify => exact List.mem_singleton.mpr rfl
  | validate | decode => exact textCode_possible s
  | encgrp n =>
    have hn : n ≠ 0 := by simpa [Instr.wellFormed] using hw
    rw [commandCode, if_neg hn]
    exact List.mem_singleton.mpr rfl
  | encode => rw [commandCode]; split_ifs <;> decide
  | decgrp final => exact groupCode_possible s.params final (lanes s.arg)

/-- Settles O32: a command's code is `commandCode`, an illegal word's is ERR_BADCMD. -/
theorem possibleCodesHold : Obligations.PossibleCodes := by
  refine ⟨fun i s hw => ?_, fun s rest ht hb hill => ?_⟩
  · obtain ⟨t, ht, hstatus⟩ := exec_completes i s
    exact ⟨t, ht, hstatus ▸ commandCode_possible hw s⟩
  · exact ⟨_, (step_block ht).trans (blockStep_illegal (s := { s with turns := rest }) hb hill), rfl⟩

/-! ## What a command that errs writes (R185) -/

theorem finishFrame_of_err {s : State} {r : Except ErrCode (List Byte)} (herr : (s.finishFrame r).status.err ≠ 0) :
    s.finishFrame r = { s with olen := 0, status := (s.finishFrame r).status } := by
  cases r with
  | error c => rfl
  | ok y => exact absurd rfl herr

theorem groupResult_of_err {p : Params} {final : Bool} {g : List Byte} (herr : (groupCode p final g).bits ≠ 0) :
    groupResult p final g = 0 :=
  if_neg fun hok => herr (congrArg ErrCode.bits hok)

/-- Settles O34: ENCODE and DECODE end as `finishFrame` does, DECGRP's RES is `groupResult`. -/
theorem errorsWriteNothingElse : Obligations.ErrorsWriteNothingElse := by
  refine ⟨fun i s t _ he herr => ⟨?_, ?_, ?_⟩, fun s => blockStep_illegal⟩
  · rintro (rfl | rfl)
    · cases (exec_encode s).symm.trans he
      exact finishFrame_of_err herr
    · cases (exec_decode s).symm.trans he
      exact finishFrame_of_err herr
  · rintro rfl
    cases (exec_validate s).symm.trans he
    rfl
  · rintro final rfl
    cases (exec_decgrp final s).symm.trans he
    rw [groupResult_of_err herr]
    rfl

/-! ## What a step does to STATUS (R28, R186) -/

/-- The status register stands at offset 4 and is reached by 32-bit accesses only (R51, R54). -/
theorem place_of_resolve_status {cap : Nat} {w : Width} {off : Offset}
    (h : resolve cap w off = some (.reg .status)) : w = .w32 ∧ off = 0x00004 := by
  rcases resolve_cases h with ⟨r, hr, hw, hat⟩ | ⟨a, ha, -⟩ | ⟨a, ha, -⟩
  · cases hr
    exact ⟨hw, BitVec.eq_of_toNat_eq (regAt_offset_eq hat).symm⟩
  · cases ha
  · cases ha

/-- A write to a target keeps STATUS, sets WBUSY, clears bits of STATUS, or is an acceptance. -/
theorem writeTarget_status (w : Width) (v : Word) (s : State) (t : Target) :
    (writeTarget w v s t).status = s.status ∨
    (s.status.busy = true ∧ (writeTarget w v s t).status = s.status.writeIgnored) ∨
    (t = .reg .status ∧ (writeTarget w v s t).status = s.status.writeOneToClear v) ∨
    (writeTarget w v s t).status = s.status.accepted := by
  rcases writeTarget_cases w v s t with ⟨hb, e⟩ | e | ⟨ht, e⟩ | ⟨-, -, e⟩ | ⟨-, -, e⟩ | ⟨-, -, e⟩ |
    ⟨a, -, -, e⟩ | ⟨a, -, -, e⟩ <;> rw [e]
  · exact .inr (.inl ⟨hb, rfl⟩)
  · exact .inl rfl
  · exact .inr (.inr (.inl ⟨ht, rfl⟩))
  · exact .inr (.inr (.inr rfl))
  all_goals exact .inl rfl

/-- The same of a host access, and a write that clears bits of STATUS stands at its offset. -/
theorem hostAccess_status (a : Access) (s : State) :
    (hostAccess a s).status = s.status ∨
    (s.status.busy = true ∧ (hostAccess a s).status = s.status.writeIgnored) ∨
    (∃ v, a = .write .w32 0x00004 v ∧ (hostAccess a s).status = s.status.writeOneToClear v) ∨
    (hostAccess a s).status = s.status.accepted := by
  cases a with
  | read w off =>
    rw [hostAccess, hostRead_frame]
    exact .inl rfl
  | write w off v =>
    rw [hostAccess]
    rcases hostWrite_cases w off v s with ⟨-, e⟩ | ⟨t, hres, e⟩ <;> rw [e]
    · exact .inl rfl
    · rcases writeTarget_status w v s t with h | h | ⟨rfl, h⟩ | h
      · exact .inl h
      · exact .inr (.inl h)
      · obtain ⟨rfl, rfl⟩ := place_of_resolve_status hres
        exact .inr (.inr (.inl ⟨v, rfl, h⟩))
      · exact .inr (.inr (.inr h))

/-- A BLOCK step keeps STATUS, the block being idle, or completes. -/
theorem blockStep_status {s t : State} (h : blockStep s = .next t) :
    t.status = s.status ∨ (s.status.busy = true ∧ ∃ c, t.status = s.status.completed c) := by
  rcases blockStep_cases s with ⟨-, e⟩ | ⟨i, hb, -, e⟩ | ⟨-, hb, -, e⟩ <;> rw [e] at h
  · cases h; exact .inl rfl
  · obtain ⟨t', ht', hstatus⟩ := exec_completes i s
    cases ht'.symm.trans h
    exact .inr ⟨hb, _, hstatus⟩
  · cases h; exact .inr ⟨hb, _, rfl⟩

/-- Everything a step that is no reset can do to STATUS. -/
theorem step_status_cases {s t : State} (h : step s = .next t) (hreset : ∀ r, s.turns ≠ .reset :: r) :
    t.status = s.status ∨
    (s.status.busy = true ∧ ∃ c, t.status = s.status.completed c) ∨
    (s.status.busy = true ∧ t.status = s.status.writeIgnored) ∨
    (∃ v r, s.turns = .access (.write .w32 0x00004 v) :: r ∧ t.status = s.status.writeOneToClear v) ∨
    t.status = s.status.accepted := by
  rcases step_cases s with ⟨-, e⟩ | ⟨r, -, e⟩ | ⟨a, r, ht, e⟩ | ⟨r, ht, -⟩ | ⟨a, r, -, e⟩
  · exact (blockStep_status (e.symm.trans h)).imp_right .inl
  · exact (blockStep_status (e.symm.trans h)).imp_right .inl
  · cases e.symm.trans h
    rcases hostAccess_status a { s with turns := r } with hst | hst | ⟨v, rfl, hst⟩ | hst
    · exact .inl hst
    · exact .inr (.inr (.inl hst))
    · exact .inr (.inr (.inr (.inl ⟨v, r, ht, hst⟩)))
    · exact .inr (.inr (.inr (.inr hst)))
  · exact absurd ht (hreset r)
  · cases e.symm.trans h

/-- Settles O51: ERR, DONE and WBUSY under each of the things a step can do to STATUS. -/
theorem statusPersists : Obligations.StatusPersists := by
  intro s t h hreset
  rcases step_status_cases h hreset with e | ⟨hb, c, e⟩ | ⟨hb, e⟩ | ⟨v, r, ht, e⟩ | e <;> rw [e]
  · exact ⟨fun _ _ => ⟨rfl, .inl rfl⟩, .inl⟩
  · exact ⟨fun hidle => absurd hb (by simp [hidle]), .inl⟩
  · exact ⟨fun hidle => absurd hb (by simp [hidle]), fun _ => .inl rfl⟩
  · refine ⟨fun _ _ => ⟨rfl, ?_⟩, fun hw => ?_⟩
    · cases hv : v.getLsbD 1 with
      | true => exact .inr ⟨v, r, ht, hv⟩
      | false => exact .inl (by rw [writeOneToClear_done, hv, Bool.not_false, Bool.and_true])
    · cases hv : v.getLsbD 8 with
      | true => exact .inr ⟨v, r, ht, hv⟩
      | false => exact .inl (by rw [writeOneToClear_wbusy, hv, hw, Bool.not_false, Bool.and_true])
  · exact ⟨nofun, .inl⟩

end Sys2Proof.Machine
end

section
/-! PROOFS. Family 70_reset_and_hazards: BLOCK's step on the pending command; reads and writes while busy; an accepted
command completes; reset in any state. -/

namespace Sys2Proof.Machine

/-! ## The pending command and reset (R200, R201, R204) -/

/-- Settles O38: both moves are BLOCK's, and the step of a busy block is the command's. -/
theorem stepRunsPendingCommand : Obligations.StepRunsPendingCommand := by
  intro s i hb hd
  refine ⟨fun rest ht => ?_, fun ht => ?_⟩
  · rw [step_block ht]
    exact blockStep_command hb hd
  · rw [step_no_turns ht]
    exact blockStep_command hb hd

theorem step_reset {s : State} {rest : List Turn} (h : s.turns = .reset :: rest) :
    step s = .next (State.platformReset { s with turns := rest }) := by
  simp only [step, takeTurn, h]

/-- After reset no byte is listed, so each is the new epoch's draw (R201). -/
theorem platformReset_readByte (s : State) (a : Nat) :
    s.platformReset.readByte a = Config.freeByte (s.epoch + 1) a := rfl

/-- Settles O55: each field is the one `State.platformReset` names. -/
theorem resetEvent : Obligations.ResetEvent := by
  intro s rest ht
  exact ⟨_, step_reset ht, rfl, rfl, rfl, rfl, rfl, rfl, rfl, rfl, platformReset_readByte _, rfl, rfl, rfl⟩

/-! ## Writes while busy (R205) -/

/-- With BUSY = 1 an allowed buffer write stores nothing and sets WBUSY. -/
theorem step_write_buffer_busy {s : State} {w : Width} {off : Offset} {v : Word} {rest : List Turn}
    (hb : s.status.busy = true) (hcap : s.params.cap ≤ 65536) (h : BufferAccess s.params.cap w off) :
    step { s with turns := .access (.write w off v) :: rest } =
      .next { s.ignoreBusyWrite with turns := rest, resp := some .written } := by
  obtain ⟨t, hr, -, hw⟩ := resolve_buffer_bytes (s := { s with turns := rest }) hcap h
  rw [step_access rfl, hostAccess, hostWrite, hr]
  simp only [hw, hb]
  rfl

/-- With BUSY = 1 a write to CMD, ILEN or ARG leaves the register and sets WBUSY. -/
theorem writeTarget_register_busy {s : State} {r : Reg} (hb : s.status.busy = true)
    (hr : r = .cmd ∨ r = .ilen ∨ r = .arg) (w : Width) (v : Word) :
    writeTarget w v s (.reg r) = s.ignoreBusyWrite := by
  rcases hr with rfl | rfl | rfl <;> exact if_pos hb

/-- With BUSY = 1 a 32-bit write at the offset of CMD, ILEN or ARG sets WBUSY alone. -/
theorem step_write_register_busy {s : State} {r : Reg} {v : Word} {rest : List Turn} (hb : s.status.busy = true)
    (hr : r = .cmd ∨ r = .ilen ∨ r = .arg) :
    step { s with turns := .access (.write .w32 (BitVec.ofNat 18 r.offset) v) :: rest } =
      .next { s.ignoreBusyWrite with turns := rest, resp := some .written } := by
  rw [step_write_register rfl, writeTarget_register_busy (s := { s with turns := rest }) hb hr]
  rfl

/-- Settles O42, by the target: ignored with WBUSY set, STATUS's acknowledgement, or no effect at all. -/
theorem busyWritesAreIgnored : Obligations.BusyWritesAreIgnored := by
  rintro s rest hb ⟨-, hcap, -⟩
  refine ⟨fun off v hoff => ?_, fun w off v hbuf => step_write_buffer_busy hb hcap hbuf, fun v => ?_,
    fun off v hoff => ?_⟩
  · rcases hoff with rfl | rfl | rfl
    · exact step_write_register_busy (r := .cmd) hb (by decide)
    · exact step_write_register_busy (r := .ilen) hb (by decide)
    · exact step_write_register_busy (r := .arg) hb (by decide)
  · rw [step_write_register (r := .status) rfl]; rfl
  · rcases hoff with rfl | rfl | rfl
    · rw [step_write_register (r := .olen) rfl]; rfl
    · rw [step_write_register (r := .capr) rfl]; rfl
    · rw [step_write_register (r := .res) rfl]; rfl

/-! ## Reads while busy (R206) -/

/-- A read of a target that is no output returns its exact value, whether or not the block is busy. -/
theorem step_read_exact {s : State} {w : Width} {off : Offset} {t : Target} {rest : List Turn}
    (hr : resolve s.params.cap w off = some t) (ht : t.isOutput = false) :
    step { s with turns := .access (.read w off) :: rest } =
      .next { s with turns := rest, resp := some (.data (s.readTarget w t)) } := by
  rw [step_access rfl, hostAccess, hostRead, hr]
  simp only [ht, Bool.and_false]
  exact congrArg (fun v => Host.Outcome.next { s with turns := rest, resp := some (.data v) })
    (readTarget_modelFields s w t s.draws rest s.resp)

/-- With BUSY = 1 a read of an output returns the next draw and counts it. -/
theorem step_read_draw {s : State} {w : Width} {off : Offset} {t : Target} {rest : List Turn}
    (hb : s.status.busy = true) (hr : resolve s.params.cap w off = some t) (ht : t.isOutput = true) :
    step { s with turns := .access (.read w off) :: rest } = .next { s with
      turns := rest, resp := some (.data (truncate w (Config.freeWord s.draws))), draws := s.draws + 1 } := by
  rw [step_access rfl, hostAccess, hostRead, hr]
  simp only [hb, ht]
  rfl

/-- Settles O43, by the target: IBUF and the other registers are no outputs; OLEN, RES and OBUF are. -/
theorem busyReads : Obligations.BusyReads := by
  rintro s rest hb ⟨-, hcap, -⟩
  refine ⟨fun r holen hres => ?_, fun w off hbuf hlo => ?_, ?_⟩
  · have hexact : Target.isOutput (.reg r) = false := by
      cases r with
      | olen => exact absurd rfl holen
      | res => exact absurd rfl hres
      | _ => rfl
    exact step_read_exact (resolve_regOffset _ r) hexact
  · obtain ⟨t, ht, hread, -⟩ := resolve_buffer_bytes hcap hbuf
    rcases resolve_buffer hcap hbuf with ⟨-, hr⟩ | ⟨hhi, -⟩
    · cases ht.symm.trans hr
      rw [step_read_exact hr rfl, hread]
    · omega
  · rintro w off (⟨rfl, rfl | rfl⟩ | ⟨hbuf, hhi⟩)
    · exact ⟨_, _, step_read_draw hb (resolve_regOffset _ .olen) rfl⟩
    · exact ⟨_, _, step_read_draw hb (resolve_regOffset _ .res) rfl⟩
    · rcases resolve_buffer hcap hbuf with ⟨hlo, -⟩ | ⟨-, hr⟩
      · omega
      · exact ⟨_, _, step_read_draw hb hr rfl⟩

/-! ## An accepted command completes (R208) -/

/-- A run goes on from the state its first step ends in. -/
theorem coreRun_succ {M : Host.Core} {n : Nat} {s t : M.State} (h : M.step s = .next t) :
    M.run (n + 1) s = M.run n t := by
  rw [Host.Core.run, h]

/-- The step of a busy block completes its command, be it legal or not (R184). -/
theorem blockStep_completes {s : State} (hb : s.status.busy = true) :
    ∃ t, blockStep s = .next t ∧ t.status.busy = false ∧ t.status.done = true := by
  rcases blockStep_cases s with ⟨hidle, -⟩ | ⟨i, -, -, e⟩ | ⟨_, -, -, e⟩
  · cases hb.symm.trans hidle
  · obtain ⟨t, ht, hstatus⟩ := exec_completes i s
    exact ⟨t, e.trans ht, by simp [hstatus]⟩
  · exact ⟨_, e, rfl, rfl⟩

/-- No host access ends a pending command. -/
theorem hostAccess_keeps_busy {s : State} (hb : s.status.busy = true) (a : Access) :
    (hostAccess a s).status.busy = true := by
  rcases hostAccess_status a s with h | ⟨-, h⟩ | ⟨v, -, h⟩ | h <;> rw [h]
  · exact hb
  · exact hb
  · exact hb
  · rfl

theorem writeTarget_turns (w : Width) (v : Word) (s : State) (t : Target) : (writeTarget w v s t).turns = s.turns := by
  rcases writeTarget_cases w v s t with ⟨-, e⟩ | e | ⟨-, e⟩ | ⟨-, -, e⟩ | ⟨-, -, e⟩ | ⟨-, -, e⟩ |
    ⟨_, -, -, e⟩ | ⟨_, -, -, e⟩ <;> rw [e] <;> rfl

/-- A host access adds no moves and takes none. -/
theorem hostAccess_turns (a : Access) (s : State) : (hostAccess a s).turns = s.turns := by
  cases a with
  | read w off => rw [hostAccess, hostRead_frame]
  | write w off v =>
    rw [hostAccess]
    rcases hostWrite_cases w off v s with ⟨-, e⟩ | ⟨t, -, e⟩ <;> rw [e]
    exact writeTarget_turns w v s t

/-- The moves before BLOCK's turn are accesses, and each of them leaves the command pending. -/
theorem coreRun_completes {s : State} {ts : List Turn} (hts : s.turns = ts) (hb : s.status.busy = true)
    (hord : ordinaryTurns ts = true) :
    ∃ n t, n ≤ ts.length + 1 ∧ Sys2Proof.core.run n s = .next t ∧ t.status.busy = false ∧ t.status.done = true := by
  induction ts generalizing s with
  | nil =>
    obtain ⟨t, ht, hdone⟩ := blockStep_completes hb
    exact ⟨1, t, le_rfl, coreRun_succ (M := Sys2Proof.core) ((step_no_turns hts).trans ht), hdone⟩
  | cons m ts ih =>
    cases m with
    | block =>
      obtain ⟨t, ht, hdone⟩ := blockStep_completes (s := { s with turns := ts }) hb
      exact ⟨1, t, Nat.le_add_left 1 _, coreRun_succ (M := Sys2Proof.core) ((step_block hts).trans ht), hdone⟩
    | access a =>
      obtain ⟨n, t, hn, ht, hdone⟩ := ih (hostAccess_turns a { s with turns := ts })
        (hostAccess_keeps_busy (s := { s with turns := ts }) hb a) hord
      exact ⟨n + 1, t, Nat.succ_le_succ hn, (coreRun_succ (M := Sys2Proof.core) (step_access hts)).trans ht, hdone⟩
    | reset => cases hord
    | accessInReset a => cases hord

/-- Settles O52, by induction on the moves still to come. -/
theorem acceptedCommandCompletes : Obligations.AcceptedCommandCompletes :=
  fun s hb hord => coreRun_completes rfl hb hord

end Sys2Proof.Machine
end
